-- ==== Sys2Proof/Word.lean ====
section
/-! DEFINITION. The machine word and the byte of an image file, with the fixed sizes of spec/00_scope.md rule R8. -/

namespace Sys2Proof

/-- A word: "a 16-bit unsigned integer, the machine's fundamental addressable unit" (R8 WORD_BITS, R16). -/
abbrev Word := BitVec 16

/-- One byte of a program or disk image FILE (R78, R194); the core itself has no bytes (R60). -/
abbrev Byte := BitVec 8

/-- NUM_REGS of R8: R0 to R15. -/
abbrev numRegs : Nat := 16

/-- DISK_SECTOR_SIZE of R8, in words. -/
abbrev sectorSize : Nat := 1024

end Sys2Proof
end

