-- ==== Sys2Proof/Syntax.lean ====
section
/-! DEFINITION. The instruction set of spec/30_encoding.md: one constructor per row of spec/opcode_table.json. -/

namespace Sys2Proof

/-- An instruction as `Decode` of rule R108 yields it: the fields are pulled out, the ignored bits are gone (R106).
LOD's and JMP's fields have their encoded widths (R101).  ADD's register indices are plain numbers, because R151
asks for the check that each lies in [0,16) (DESIGN CHOICE, log 15). -/
inductive Instr where
  /-- LOD Rd, addr8 (R140): load the word at the zero-extended 8-bit address. -/
  | lod (rd : BitVec 4) (addr8 : BitVec 8)
  /-- ADD Rd, Rs (R150): add, modulo 65536. -/
  | add (rd rs : Nat)
  /-- JMP addr12 (R160): absolute, unconditional. -/
  | jmp (addr12 : BitVec 12)
  /-- HLT (R162). -/
  | hlt
  deriving DecidableEq, Repr

end Sys2Proof
end

