-- ==== Sys2Proof/WellFormed.lean ====
section
/-! DEFINITION. Which instructions a word can encode: every register index is in [0,16) (spec/30_encoding.md rule
R101, spec/10_state.md rule R32). -/

namespace Sys2Proof

/-- The check on an instruction's fields.  Only ADD's indices can break it: the other fields have their width in
their type. -/
def WellFormed : Instr → Bool
  | .lod _ _ => true
  | .add rd rs => decide (rd < numRegs) && decide (rs < numRegs)
  | .jmp _ => true
  | .hlt => true

end Sys2Proof
end

