-- ==== Sys2Proof/Decode.lean ====
section
/-! DEFINITION. The decoder of spec/30_encoding.md rules R100 to R108, total on every word, and the encoder of R102
and R110. -/

namespace Sys2Proof

/-- The outcome of decoding one word (R107, R108): an instruction, or ILLEGAL with the unknown opcode. -/
inductive Decoded where
  /-- The word encodes this instruction. -/
  | instr (i : Instr)
  /-- ILLEGAL: no row of the opcode map has this opcode (R105).  Executing the word raises DecodeFault (R164). -/
  | illegal (op : BitVec 4)
  deriving DecidableEq, Repr

/-- op, bits 15:12 (R101). -/
def opField (w : Word) : BitVec 4 := w.extractLsb' 12 4

/-- rd, bits 11:8 (R101). -/
def rdField (w : Word) : BitVec 4 := w.extractLsb' 8 4

/-- rs, bits 7:4 (R101). -/
def rsField (w : Word) : BitVec 4 := w.extractLsb' 4 4

/-- addr8, bits 7:0 (R101). -/
def addr8Field (w : Word) : BitVec 8 := w.extractLsb' 0 8

/-- addr12, bits 11:0 (R101). -/
def addr12Field (w : Word) : BitVec 12 := w.extractLsb' 0 12

/-- The decode function (R108).  It dispatches on the opcode alone (R104); ADD's bits 3:0 and HLT's bits 11:0 take
no part (R106). -/
def decode (w : Word) : Decoded :=
  if opField w = 0x1#4 then .instr (.lod (rdField w) (addr8Field w))
  else if opField w = 0x2#4 then .instr (.add (rdField w).toNat (rsField w).toNat)
  else if opField w = 0x4#4 then .instr (.jmp (addr12Field w))
  else if opField w = 0xF#4 then .instr .hlt
  else .illegal (opField w)

/-- The word of an instruction, by the formats of R102 with the ignored bits written as 0 (R110).  An index that is
not well-formed has no word; its low four bits stand there. -/
def encode : Instr → Word
  | .lod rd addr8 => 0x1#4 ++ rd ++ addr8
  | .add rd rs => 0x2#4 ++ BitVec.ofNat 4 rd ++ BitVec.ofNat 4 rs ++ 0#4
  | .jmp addr12 => 0x4#4 ++ addr12
  | .hlt => 0xF#4 ++ 0#12

/-- What the decoder reads from an instruction whose bits are `w`, of which the table gives `nbits`; every bit above
them is 0.  An instruction is one word (R100), so its low 16 bits are all of it. -/
def decodeTableWord (nbits w : Nat) : Option Instr :=
  match decode (BitVec.ofNat 16 (w % 2 ^ nbits)) with
  | .instr i => some i
  | .illegal _ => none

end Sys2Proof
end

