-- ==== Sys2Proof/Config.lean ====
section
/-! DEFINITION. The configuration parameters of spec/00_scope.md rule R9 (with DISK_CREATE_WORDS of 44 rule R181)
and the free values, which no proof can evaluate. -/

namespace Sys2Proof

/-- TIMER_POLICY (R9, R230, R231, R232). -/
inductive TimerPolicy where
  /-- `Ticks(T)`: the pending flag is set every `threshold` completed iterations (R230). -/
  | ticks (threshold : Nat)
  /-- `WallClock`: the firing at step 6 is a draw (R231). -/
  | wallClock
  deriving DecidableEq, Repr

/-- FILE_BYTE_ORDER (R9, R78, R194). -/
inductive ByteOrder where
  | little
  | big
  deriving DecidableEq, Repr

/-- VIDEO_ENCODING (R9, R73): the renderer's side, never read by the core. -/
inductive VideoEncoding where
  | bitmask
  | sevenSegment
  deriving DecidableEq, Repr

/-- The configuration of one machine (R9).  The legal values are `Machine.configLegal`. -/
structure Config where
  /-- MEM_SIZE, in words. -/
  memSize : Nat
  /-- RESET_VECTOR. -/
  resetVector : Nat
  /-- TIMER_POLICY. -/
  timer : TimerPolicy
  /-- KBD_ADDR. -/
  kbdAddr : Nat
  /-- VIDEO_BASE. -/
  videoBase : Nat
  /-- VIDEO_ROWS. -/
  videoRows : Nat
  /-- VIDEO_COLS. -/
  videoCols : Nat
  /-- ROM_SIZE, in words. -/
  romSize : Nat
  /-- FILE_BYTE_ORDER. -/
  fileByteOrder : ByteOrder
  /-- VIDEO_ENCODING. -/
  videoEncoding : VideoEncoding
  /-- DISK_CREATE_WORDS (R181): the length of a store created because none was there. -/
  diskCreateWords : Nat
  deriving DecidableEq, Repr

/-- The test configuration TC of spec/95_test_vectors.md section 0.  DESIGN CHOICE, unsafe (log 2): the spec leaves
most of these values OPEN; only a statement that names this configuration rests on them. -/
def Config.tc : Config where
  memSize := 65536
  resetVector := 0
  timer := .ticks 8000
  kbdAddr := 0x00F0
  videoBase := 0x00C0
  videoRows := 2
  videoCols := 8
  romSize := 0
  fileByteOrder := .little
  videoEncoding := .bitmask
  diskCreateWords := 0

/-- FREE VALUE (R231, log 7): whether the wall-clock timer fires, at the n-th use, in an iteration whose draw no
listed move gives.  It has no law. -/
opaque Config.freeFired : Nat → Bool

/-- FREE VALUE (R231, log 7): the reference timestamp that the n-th wall-clock firing leaves in the tick counter.
The spec gives no value for it and no rule reads it. -/
opaque Config.freeTimestamp : Nat → Nat

end Sys2Proof
end

