-- ==== Sys2Proof/Machine/State.lean ====
section
/-! DEFINITION. Every piece of state of spec/10_state.md, the disk store and port of spec/44_disk_controller.md, the
event trace of spec/40_cycle.md rule R127, and the moves of the three agents (spec/00_scope.md rule R14), as plain
data; and the machine right after reset. -/

namespace Sys2Proof.Machine

/-- Memory as (address, word) pairs (R37, R60): addresses strictly rising, no zero word listed, because an unlisted
address reads as 0, "zero-initialized" (`Memory.wf`; DESIGN CHOICE, log 5). -/
abbrev Memory := List (Nat × Word)

/-- The disk backing store, "store of words" (R181): word i at position i, L its length. -/
abbrev Store := List Word

/-- The disk port's buffer, exactly 1024 words wide (R180). -/
abbrev Buffer := { ws : List Word // ws.length = sectorSize }

/-- The run status (R40). -/
inductive Status where
  | running
  | halted
  | quit
  | addressingFault
  | decodeFault
  | invalidOperandFault
  | ioUnavailable
  deriving DecidableEq, Repr

/-- The kinds of fatal fault (R210, R214). -/
inductive FaultKind where
  | addressing
  | decode
  | invalidOperand
  deriving DecidableEq, Repr

/-- The fault record (R41, R214). -/
structure FaultRecord where
  kind : FaultKind
  /-- The fetch address of the iteration that faulted. -/
  faultPc : Nat
  /-- The raw instruction word, or none where the fetch itself faulted. -/
  instr : Option Word
  /-- The out-of-range address, or none. -/
  addr : Option Nat
  deriving DecidableEq, Repr

/-- Why a disk command failed (R195). -/
inductive DiskFault where
  | unsupportedCommand
  | unavailable
  | shortRead
  | shortWrite
  deriving DecidableEq, Repr

/-- The result of a disk command (R180, R195). -/
inductive DiskResult where
  | ok
  | fault (reason : DiskFault)
  deriving DecidableEq, Repr

/-- The events of the trace (R127). -/
inductive Event where
  | irqNotify
  | frame
  | stop (status : Status) (record : Option FaultRecord)
  | kbdWrite (v : Word)
  | disk (cmd sector : Word) (result : DiskResult)
  deriving DecidableEq, Repr

/-- What the poll of step 1 yields (R121, R132). -/
inductive Poll where
  /-- No quit signal. -/
  | clear
  /-- The quit signal is observed. -/
  | quit
  /-- The poll never returns: a hang (R132). -/
  | never
  deriving DecidableEq, Repr

/-- The draws of one iteration (R12 `draw`, R70, R121, R231). -/
structure EngineDraws where
  poll : Poll
  /-- The words the host writes to the keyboard cell between this iteration's fetch and its LOD read (R70). -/
  kbd : List Word
  /-- The wall-clock timer's firing (R231), or none where the move does not give it: then it is the free value
  `Config.freeFired`. -/
  fired : Option Bool
  deriving DecidableEq, Repr

/-- The draws of the environment in one disk call (R184, R186, R188, R191). -/
structure DiskDraws where
  /-- The store cannot be opened (R184). -/
  unavailable : Bool
  /-- A WRITE that found the store available is short (R184). -/
  shortWrite : Bool
  /-- The store stalls: the call never returns (R191). -/
  stalls : Bool
  /-- buf_out of a failed READ (R186). -/
  garbage : Buffer
  /-- The words a failed WRITE lands, from the first position it may touch (R188; DEDUCED, log 17). -/
  landed : List Word
  deriving DecidableEq, Repr

/-- One call of the disk port (R180) with the environment's draws. -/
structure DiskCall where
  cmd : Word
  sector : Word
  bufIn : Buffer
  draws : DiskDraws
  deriving DecidableEq, Repr

/-- The outputs of the disk port (R180). -/
structure DiskReply where
  result : DiskResult
  bufOut : Buffer
  deriving DecidableEq, Repr

/-- The launch inputs of a reset (R10), but for DISK_INIT: the store persists from run to run (R181, R255). -/
structure Launch where
  /-- REG_INIT. -/
  regInit : Vector Word numRegs
  /-- The bytes of the program image file (R252). -/
  file : List Byte
  /-- IO_OK. -/
  ioOk : Bool
  deriving DecidableEq, Repr

/-- One step of one agent (R14). -/
inductive Move where
  /-- The engine runs one iteration (R120). -/
  | engine (draws : EngineDraws)
  /-- The host writes the keyboard cell before the next iteration (R70). -/
  | kbdWrite (v : Word)
  /-- The host calls the disk controller (R180). -/
  | disk (call : DiskCall)
  /-- The host resets the machine (R14 e, R250). -/
  | reset (launch : Launch)
  deriving DecidableEq, Repr

/-- The state of the machine.  INVENTORY.md's '## State' gives each field's rule and reset value. -/
structure State where
  /-- The configuration (R9); no step changes it.  The model's own field (DESIGN CHOICE, log 1). -/
  cfg : Config
  /-- x[0] to x[15] (R30). -/
  regs : Vector Word numRegs
  /-- The program counter (R33). -/
  pc : Nat
  /-- The memory array (R37), with the keyboard cell and the video region in it (R66). -/
  mem : Memory
  /-- The pending-interrupt flag (R38). -/
  pending : Bool
  /-- The tick counter (R39). -/
  tick : Nat
  /-- The run status (R40). -/
  status : Status
  /-- The fault record (R41). -/
  record : Option FaultRecord
  /-- The disk backing store (R181). -/
  disk : Store
  /-- The outputs of the last disk call, as the host holds them (R180; DESIGN CHOICE, log 9). -/
  diskOut : Option DiskReply
  /-- The event trace, oldest first (R127). -/
  trace : List Event
  /-- `fa` of the iteration in progress (R120).  The model's own field (DESIGN CHOICE, log 8). -/
  fetchAddr : Nat
  /-- `instr` of the iteration in progress (R120).  The model's own field (DESIGN CHOICE, log 8). -/
  ir : Word
  /-- The moves to come, next first (DESIGN CHOICE, log 6).  The model's own field. -/
  inputs : List Move
  /-- How many free values the wall-clock timer has used (DESIGN CHOICE, log 7).  The model's own field. -/
  draws : Nat
  deriving DecidableEq, Repr

/-- The reasons a step stops.  The spec's own faults (R210) are no stops here: raising one is a next state with its
status and its record. -/
inductive Fault where
  /-- Raised by an iteration asked of a machine whose status is not RUNNING: the step is not enabled (R120, R129).
  Safe: nothing is claimed to happen. -/
  | notRunning (status : Status)
  /-- Raised by an iteration whose poll never returns (R132): a hang, written as a stuck state.  Safe. -/
  | pollHang
  /-- Raised by a disk call that never returns (R191): a hang, written as a stuck state.  Safe. -/
  | diskHang
  deriving DecidableEq, Repr

/-- The reasons the model gives no meaning. -/
inductive Refusal where
  /-- Raised by an arm of `exec` whose instruction has no meaning yet.  Safe.  No arm raises it. -/
  | notModelled (mnemonic : String)
  /-- Raised by a reset under a configuration outside the legal values, which the spec refuses (R9, R230).  Safe. -/
  | configRefused
  /-- Raised by a reset whose program file has an odd number of bytes, which the spec refuses (R252).  Safe. -/
  | imageOddBytes
  /-- Raised by a reset whose program image holds more than MEM_SIZE words, which the spec refuses (R252).  Safe. -/
  | imageTooLarge
  deriving DecidableEq, Repr

/-- The outcome of a step or of a meaning. -/
abbrev Answer := Host.Outcome State Fault Refusal

/-- The machine right after reset (R47, R250, R253), in the configuration TC, with an empty program image, no disk
image, and I/O available (DESIGN CHOICE, log 2, log 4).  The registers hold 0: REG_INIT has no law, so DESIGN CHOICE,
unsafe (log 3); `resetState` gives the reset for every configuration and every launch. -/
def State.reset : State where
  cfg := Config.tc
  regs := Vector.replicate numRegs 0
  pc := 0
  mem := []
  pending := false
  tick := 0
  status := .running
  record := none
  disk := []
  diskOut := none
  trace := []
  fetchAddr := 0
  ir := 0
  inputs := []
  draws := 0

end Sys2Proof.Machine
end

