-- ==== Sys2Proof/Machine/Ops.lean ====
section
/-! DEFINITION. The named operations over memory, registers, the trace and the run status: MemRead and MemWrite
(spec/20_memory.md rules R63, R64, R67), register access with its index check (spec/10_state.md rule R32), and taking
a fault or a halt (spec/40_cycle.md rule R120, spec/60_exceptions.md rules R211, R214). -/

namespace Sys2Proof.Machine

/-- The word an address of the memory array holds; an unlisted address holds 0 (R37). -/
def Memory.get : Memory → Nat → Word
  | [], _ => 0
  | (b, w) :: m, a => if a = b then w else Memory.get m a

/-- Memory with the word `v` at address `a`; the canonical form is kept (`Memory.wf`). -/
def Memory.set : Memory → Nat → Word → Memory
  | [], a, v => if v = 0 then [] else [(a, v)]
  | (b, w) :: m, a, v =>
    if a < b then (if v = 0 then (b, w) :: m else (a, v) :: (b, w) :: m)
    else if a = b then (if v = 0 then m else (a, v) :: m)
    else (b, w) :: Memory.set m a v

/-- The canonical form: addresses strictly rising, no zero word listed. -/
def Memory.wf : Memory → Bool
  | [] => true
  | (a, v) :: m => decide (v ≠ 0) && m.all (fun c => decide (a < c.1)) && Memory.wf m

/-- Every listed address is below `size` (R37: addresses are 0 .. MEM_SIZE-1). -/
def Memory.within (size : Nat) (m : Memory) : Bool := m.all (fun c => decide (c.1 < size))

/-- The words `ws` stored from address `a` on, in order: the loop of the loaders (R251, R252). -/
def Memory.load : Memory → Nat → List Word → Memory
  | m, _, [] => m
  | m, a, w :: ws => Memory.load (Memory.set m a w) (a + 1) ws

/-- MemRead(a, 1) (R64): the stored word, whatever the region; none where a ≥ MEM_SIZE, which raises AddressingFault
(R63).  It changes nothing (R68). -/
def memRead (a : Nat) (s : State) : Option Word :=
  if a < s.cfg.memSize then some (Memory.get s.mem a) else none

/-- MemWrite(a, 1, v) (R12, R67).  At a ≥ MEM_SIZE the access is not performed (R63); its one user here, the host's
keyboard write, meets that only in a configuration the spec refuses (DESIGN CHOICE, log 20). -/
def memWrite (a : Nat) (v : Word) (s : State) : State :=
  { s with mem := if a < s.cfg.memSize then Memory.set s.mem a v else s.mem }

/-- x[i], with the index check of R32: none outside [0,16). -/
def readReg (i : Nat) (s : State) : Option Word := s.regs[i]?

/-- x[i] <- v (R12).  No register is hardwired (R30). -/
def writeReg (i : Nat) (v : Word) (s : State) : State := { s with regs := s.regs.setIfInBounds i v }

/-- pc <- t (R12). -/
def setPc (t : Nat) (s : State) : State := { s with pc := t }

/-- emit E: append the event to the trace (R12, R127). -/
def emit (e : Event) (s : State) : State := { s with trace := s.trace ++ [e] }

/-- The status of a fault kind (R210, R213). -/
def FaultKind.status : FaultKind → Status
  | .addressing => .addressingFault
  | .decode => .decodeFault
  | .invalidOperand => .invalidOperandFault

/-- The status code of the status port (R213), 3 bits wide (R42). -/
def Status.code : Status → BitVec 3
  | .running => 0
  | .halted => 1
  | .quit => 2
  | .addressingFault => 3
  | .decodeFault => 4
  | .invalidOperandFault => 5
  | .ioUnavailable => 6

/-- raise F(info) (R120, R211, R214): taking a fault, the ONE exception entry of the machine.  The status and the
record are written and Stop is emitted (R127); nothing else changes: no vector, no saved state (R236). -/
def raise (kind : FaultKind) (faultPc : Nat) (instr : Option Word) (addr : Option Nat) (s : State) : State :=
  { s with
    status := kind.status
    record := some ⟨kind, faultPc, instr, addr⟩
    trace := s.trace ++ [.stop kind.status (some ⟨kind, faultPc, instr, addr⟩)] }

/-- halt(S) (R120): the run ends with status S, Stop is emitted (R127), nothing else changes.  The event carries no
record: a record is valid only while the status is a fault (R41; DESIGN CHOICE, log 22). -/
def halt (st : Status) (s : State) : State :=
  { s with status := st, trace := s.trace ++ [.stop st none] }

end Sys2Proof.Machine
end

