-- ==== Sys2Proof/Machine/Disk.lean ====
section
/-! DEFINITION. The disk controller (spec/44_disk_controller.md): the three commands over the backing store, and the
host's call as one atomic step.  No instruction reaches it (R75). -/

namespace Sys2Proof.Machine

/-- The result code of the disk port (R195). -/
def DiskResult.code : DiskResult → BitVec 3
  | .ok => 0
  | .fault .unsupportedCommand => 1
  | .fault .unavailable => 2
  | .fault .shortRead => 3
  | .fault .shortWrite => 4

/-- The word offset of a sector, s * 1024 (R186). -/
def sectorStart (sector : Word) : Nat := sector.toNat * sectorSize

/-- The 1024 words of a sector, or none where the store ends before the sector does (R186). -/
def readSector (d : Store) (sector : Word) : Option Buffer :=
  if h : ((d.drop (sectorStart sector)).take sectorSize).length = sectorSize then
    some ⟨(d.drop (sectorStart sector)).take sectorSize, h⟩
  else none

/-- The store after a WRITE that returns OK (R187): the gap past the old end filled with 0 (PRESUMED, log 16), the
sector overwritten whole, the store grown to cover it. -/
def writeSector (d : Store) (sector : Word) (b : Buffer) : Store :=
  d.take (sectorStart sector) ++ List.replicate (sectorStart sector - d.length) 0 ++ b.1 ++
    d.drop (sectorStart sector + sectorSize)

/-- The store after a WRITE that failed (R188): from the first position it may touch, the drawn words land, cut at
the sector's end; every store R188 allows is reached by some drawn words, and no other (DEDUCED, log 17). -/
def failedWriteStore (d : Store) (sector : Word) (landed : List Word) : Store :=
  let first := min d.length (sectorStart sector)
  let words := landed.take (sectorStart sector + sectorSize - first)
  d.take first ++ words ++ d.drop (first + words.length)

/-- RESET (R185): no data moves, on either outcome. -/
def diskReset (c : DiskCall) (d : Store) : DiskReply × Store :=
  if c.draws.unavailable then (⟨.fault .unavailable, c.bufIn⟩, d) else (⟨.ok, c.bufIn⟩, d)

/-- READ (R186): the sector's words, or a fault with any buffer; the store is unchanged. -/
def diskRead (c : DiskCall) (d : Store) : DiskReply × Store :=
  if c.draws.unavailable then (⟨.fault .unavailable, c.draws.garbage⟩, d)
  else match readSector d c.sector with
    | none => (⟨.fault .shortRead, c.draws.garbage⟩, d)
    | some b => (⟨.ok, b⟩, d)

/-- WRITE (R187): the caller's buffer is unchanged on every outcome. -/
def diskWrite (c : DiskCall) (d : Store) : DiskReply × Store :=
  if c.draws.unavailable then (⟨.fault .unavailable, c.bufIn⟩, failedWriteStore d c.sector c.draws.landed)
  else if c.draws.shortWrite then (⟨.fault .shortWrite, c.bufIn⟩, failedWriteStore d c.sector c.draws.landed)
  else (⟨.ok, c.bufIn⟩, writeSector d c.sector c.bufIn)

/-- `handle(command, sector, buffer)` (R180): the command is decoded first (R183, R190). -/
def diskHandle (c : DiskCall) (d : Store) : DiskReply × Store :=
  if c.cmd = 0 then diskReset c d
  else if c.cmd = 1 then diskRead c d
  else if c.cmd = 2 then diskWrite c d
  else (⟨.fault .unsupportedCommand, c.bufIn⟩, d)

/-- The call acquires the store: its command is one of the three (R183, R190). -/
def acquiresStore (cmd : Word) : Bool := decide (cmd = 0) || decide (cmd = 1) || decide (cmd = 2)

/-- The host's disk call as a step (R180, R127).  A stalled store never returns (R191); an unsupported command never
reaches the store.  Only the store, the port's outputs and the trace change (R188, R189). -/
def diskMove (c : DiskCall) (s : State) : Answer :=
  if acquiresStore c.cmd && c.draws.stalls then .fault .diskHang
  else .next { s with
    disk := (diskHandle c s.disk).2
    diskOut := some (diskHandle c s.disk).1
    trace := s.trace ++ [.disk c.cmd c.sector (diskHandle c s.disk).1.result] }

end Sys2Proof.Machine
end

