-- ==== Sys2Proof/Machine/Regions.lean ====
section
/-! DEFINITION. The address decoder and the region multiplexer (spec/20_memory.md rules R65, R66), the video cell map
(R72) and the keyboard cell (R69, R70). -/

namespace Sys2Proof.Machine

/-- The four regions (R65). -/
inductive Region where
  | keyboard
  | video
  | boot
  | ram
  deriving DecidableEq, Repr

/-- Region(a), for a < MEM_SIZE (R65), the checks in the rule's order.  It decides no value (R64). -/
def region (c : Config) (a : Nat) : Region :=
  if a = c.kbdAddr then .keyboard
  else if c.videoBase ≤ a ∧ a < c.videoBase + c.videoRows * c.videoCols then .video
  else if a < c.romSize then .boot
  else .ram

/-- What the host may write (R66): the keyboard region only.  Both sides may read every region. -/
def hostMayWrite : Region → Bool
  | .keyboard => true
  | .video => false
  | .boot => false
  | .ram => false

/-- The address of video cell (r, c), row-major (R72). -/
def videoAddr (c : Config) (row col : Nat) : Nat := c.videoBase + row * c.videoCols + col

/-- The video read of the host (R15, R72): the stored word of cell (r, c), none outside the region.  It changes
nothing, and the core does not interpret the word (R73). -/
def videoWord (row col : Nat) (s : State) : Option Word :=
  if row < s.cfg.videoRows ∧ col < s.cfg.videoCols then memRead (videoAddr s.cfg row col) s else none

/-- One host write of the keyboard cell (R70): atomic, any word, recorded in the trace (R127). -/
def kbdWrite (v : Word) (s : State) : State := emit (.kbdWrite v) (memWrite s.cfg.kbdAddr v s)

/-- Host writes of the keyboard cell one after another; the last wins (R70). -/
def kbdWrites : List Word → State → State
  | [], s => s
  | v :: vs, s => kbdWrites vs (kbdWrite v s)

end Sys2Proof.Machine
end

