-- ==== Sys2Proof/Machine/Reset.lean ====
section
/-! DEFINITION. Reset and loading (spec/70_reset_and_hazards.md rules R250 to R255), the legal configurations
(spec/00_scope.md rule R9), and the byte layout of the image files (R78, R194, R252). -/

namespace Sys2Proof.Machine

/-- The legal values of the configuration (R9; R230 refuses T = 0). -/
def configLegal (c : Config) : Bool :=
  decide (1 ≤ c.memSize) && decide (c.memSize ≤ 65536) && decide (c.resetVector ≤ 65535) &&
  (match c.timer with
    | .ticks threshold => decide (1 ≤ threshold)
    | .wallClock => true) &&
  decide (c.kbdAddr < c.memSize) &&
  decide (c.videoBase + c.videoRows * c.videoCols ≤ c.memSize) &&
  !(decide (c.videoBase ≤ c.kbdAddr) && decide (c.kbdAddr < c.videoBase + c.videoRows * c.videoCols)) &&
  decide (c.romSize ≤ c.memSize)

/-- The word of two consecutive file bytes, the first at the even offset (R78, R194). -/
def wordOfBytes : ByteOrder → Byte → Byte → Word
  | .little, b0, b1 => b1 ++ b0
  | .big, b0, b1 => b0 ++ b1

/-- The two file bytes of a word, in file order (R194). -/
def bytesOfWord : ByteOrder → Word → List Byte
  | .little, w => [w.extractLsb' 0 8, w.extractLsb' 8 8]
  | .big, w => [w.extractLsb' 8 8, w.extractLsb' 0 8]

/-- The word sequence of an image file: word i is the bytes 2i and 2i+1 (R252); none for an odd number of bytes. -/
def imageOfFile (order : ByteOrder) : List Byte → Option (List Word)
  | [] => some []
  | [_] => none
  | b0 :: b1 :: rest =>
    match imageOfFile order rest with
    | none => none
    | some ws => some (wordOfBytes order b0 b1 :: ws)

/-- The bytes of the file that holds a word sequence (R194). -/
def fileOfImage (order : ByteOrder) (ws : List Word) : List Byte := ws.flatMap (bytesOfWord order)

/-- The store at reset (R250): DISK_INIT, or DISK_CREATE_WORDS zero words where it is absent. -/
def initialStore (c : Config) : Option Store → Store
  | none => List.replicate c.diskCreateWords 0
  | some d => d

/-- BootLoad() (R251): mem[i] <- DISK[i] for i < min(ROM_SIZE, L). -/
def bootLoad (c : Config) (d : Store) (m : Memory) : Memory := Memory.load m 0 (d.take c.romSize)

/-- ProgramLoad(P) (R252): mem[i] <- P[i]. -/
def programLoad (image : List Word) (m : Memory) : Memory := Memory.load m 0 image

/-- Reset(PROGRAM_IMAGE, DISK_INIT, REG_INIT, IO_OK) (R250), from zeroed memory; the program image wins where the two
loads overlap.  `inputs` and `draws`, the model's own fields, are handed on. -/
def resetState (c : Config) (image : List Word) (diskInit : Option Store) (regInit : Vector Word numRegs)
    (ioOk : Bool) (inputs : List Move) (draws : Nat) : State where
  cfg := c
  regs := regInit
  pc := c.resetVector
  mem := programLoad image (bootLoad c (initialStore c diskInit) [])
  pending := false
  tick := 0
  status := if ioOk then .running else .ioUnavailable
  record := none
  disk := initialStore c diskInit
  diskOut := none
  trace := []
  fetchAddr := 0
  ir := 0
  inputs := inputs
  draws := draws

/-- Why the spec refuses a launch of this program file in this configuration (R9, R252), or the image it loads. -/
def launchImage (c : Config) (file : List Byte) : Except Refusal (List Word) :=
  if configLegal c then
    match imageOfFile c.fileByteOrder file with
    | none => .error .imageOddBytes
    | some image => if image.length ≤ c.memSize then .ok image else .error .imageTooLarge
  else .error .configRefused

/-- The host's reset as a step (R14 e, R250): the store persists (R255). -/
def resetMove (l : Launch) (s : State) : Answer :=
  match launchImage s.cfg l.file with
  | .error r => .refused r
  | .ok image => .next (resetState s.cfg image (some s.disk) l.regInit l.ioOk s.inputs s.draws)

end Sys2Proof.Machine
end

