-- ==== Sys2Proof/Machine/Timer.lean ====
section
/-! DEFINITION. The interrupt timer and the service of a pending interrupt (spec/60_exceptions.md rules R230, R231,
R233, R234). -/

namespace Sys2Proof.Machine

/-- TimerTick(), step 6 (R230, R231).  Under `WallClock`, `fired` is the iteration's draw, or none for the free value;
a firing resets the reference timestamp to a free value (DESIGN CHOICE, log 7). -/
def timerTick (fired : Option Bool) (s : State) : State :=
  match s.cfg.timer with
  | .ticks threshold =>
    if s.tick + 1 ≥ threshold then { s with tick := 0, pending := true } else { s with tick := s.tick + 1 }
  | .wallClock =>
    if fired.getD (Config.freeFired s.draws) then
      { s with pending := true, tick := Config.freeTimestamp s.draws, draws := s.draws + 1 }
    else { s with draws := s.draws + 1 }

/-- Step 2 (R122, R233): the default handler's one effect is IrqNotify (R234); then the flag is cleared. -/
def serviceInterrupt (s : State) : State :=
  if s.pending then { s with trace := s.trace ++ [.irqNotify], pending := false } else s

end Sys2Proof.Machine
end

