-- ==== Sys2Proof/Machine/Cycle.lean ====
section
/-! DEFINITION. One iteration of the engine (spec/40_cycle.md rule R120) in its fixed order (R133), and one step of
whichever agent moves next (spec/00_scope.md rule R14).  The meaning of an instruction, `exec`, is handed in, so that
everything here stands before Dispatch. -/

namespace Sys2Proof.Machine

/-- The draws of an iteration no listed move gives: a silent host, and the wall-clock firing left free (DESIGN CHOICE,
log 6, log 7). -/
def silentDraws : EngineDraws where
  poll := .clear
  kbd := []
  fired := none

/-- Step 3, the fetch (R123): the word at the pc, latched with its address, and the pc advanced by one, never
wrapped (R34); none where the pc is at or past MEM_SIZE. -/
def fetch (s : State) : Option State :=
  match memRead s.pc s with
  | none => none
  | some w => some { s with fetchAddr := s.pc, ir := w, pc := s.pc + 1 }

/-- The end of an iteration (R124): where execution stopped the run, steps 6 to 8 do not run; otherwise the timer
advances (R125) and Frame is emitted (R126).  The pacing of step 8 has no effect (R128). -/
def finishIteration (fired : Option Bool) (s : State) : State :=
  if s.status = .running then emit .frame (timerTick fired s) else s

/-- Steps 4 to 8 on a state whose fetch has succeeded (R124): decode and execute, DecodeFault for an unknown opcode
(R164). -/
def executeFetched (ex : Instr → State → Answer) (fired : Option Bool) (s : State) : Answer :=
  match decode s.ir with
  | .illegal _ => .next (raise .decode s.fetchAddr (some s.ir) none s)
  | .instr i =>
    match ex i s with
    | .next t => .next (finishIteration fired t)
    | .fault r => .fault r
    | .refused r => .refused r

/-- Steps 3 to 8: the fetch, the host's keyboard writes that fall after it (R70; DEDUCED, log 11), and the rest; a
fetch out of range raises AddressingFault with the pc unchanged (R123). -/
def fetchAndExecute (ex : Instr → State → Answer) (d : EngineDraws) (s : State) : Answer :=
  match fetch s with
  | none => .next (raise .addressing s.pc none (some s.pc) s)
  | some t => executeFetched ex d.fired (kbdWrites d.kbd t)

/-- Iteration() (R120), enabled only while the status is RUNNING. -/
def iteration (ex : Instr → State → Answer) (d : EngineDraws) (s : State) : Answer :=
  if s.status = .running then
    match d.poll with
    | .never => .fault .pollHang
    | .quit => .next (halt .quit s)
    | .clear => fetchAndExecute ex d (serviceInterrupt s)
  else .fault (.notRunning s.status)

/-- One step of one agent (R14). -/
def moveStep (ex : Instr → State → Answer) (m : Move) (s : State) : Answer :=
  match m with
  | .engine d => iteration ex d s
  | .kbdWrite v => .next (kbdWrite v s)
  | .disk c => diskMove c s
  | .reset l => resetMove l s

/-- The next move taken off the list and made; where none is listed, an iteration with a silent host. -/
def machineStep (ex : Instr → State → Answer) (s : State) : Answer :=
  match s.inputs with
  | [] => iteration ex silentDraws s
  | m :: rest => moveStep ex m { s with inputs := rest }

/-- The instruction word `w` stored at the pc, in a running machine whose next move is an iteration with a silent
host: a program is loaded from outside the machine, and this stands for that load (DESIGN CHOICE, log 4). -/
def placeWord (nbits w : Nat) (s : State) : State :=
  { memWrite s.pc (BitVec.ofNat 16 (w % 2 ^ nbits)) s with status := .running, inputs := [] }

end Sys2Proof.Machine
end

