-- ==== Sys2Proof/Machine/Flags.lean ====
section
/-! DEFINITION. The ALU's one operation (spec/42_arith.md rule R152).  The core has no flags and no condition codes
(spec/10_state.md rule R43), so this computes a word and no flag. -/

namespace Sys2Proof.Machine

/-- add(a, b) = (a + b) mod 65536 (R152): the exact sum, narrowed; carry and overflow are recorded nowhere (R150). -/
def aluAdd (a b : Word) : Word := BitVec.ofNat 16 ((a.toNat + b.toNat) % 65536)

end Sys2Proof.Machine
end

