-- ==== Sys2Proof/Machine/Operands.lean ====
section
/-! DEFINITION. Operand assembly (spec/30_encoding.md rule R103): the three operand forms of the instruction set. -/

namespace Sys2Proof.Machine

/-- zext_16 of an unsigned field (R12). -/
def zext16 {n : Nat} (v : BitVec n) : Word := v.setWidth 16

/-- LOD's address (R103): the 8-bit field, zero-extended, not scaled; 0..255. -/
def lodAddress (addr8 : BitVec 8) : Nat := (zext16 addr8).toNat

/-- JMP's target (R103): the 12-bit field, zero-extended, absolute; 0..4095. -/
def jmpTarget (addr12 : BitVec 12) : Nat := (zext16 addr12).toNat

/-- The two register operands of ADD, both read before any write, or none where an index is outside [0,16)
(R32, R150, R151). -/
def addOperands (rd rs : Nat) (s : State) : Option (Word × Word) :=
  match readReg rd s, readReg rs s with
  | some a, some b => some (a, b)
  | _, _ => none

end Sys2Proof.Machine
end

