-- ==== Sys2Proof/Machine/Arith.lean ====
section
/-! DEFINITION. The arithmetic family (spec/42_arith.md): ADD. -/

namespace Sys2Proof.Machine

/-- ExecADD (R150): x[rd] <- (x[rd] + x[rs]) mod 65536, or InvalidOperandFault where an index is outside [0,16), a
check no encoding can fail and the model keeps (R151). -/
def execAdd (rd rs : Nat) (s : State) : Answer :=
  match addOperands rd rs s with
  | none => .next (raise .invalidOperand s.fetchAddr (some s.ir) none s)
  | some (a, b) => .next (writeReg rd (aluAdd a b) s)

end Sys2Proof.Machine
end

