-- ==== Sys2Proof/Machine/Control.lean ====
section
/-! DEFINITION. The control family (spec/43_control.md): JMP and HLT.  The unknown opcode of R164 is raised where the
iteration decodes (`executeFetched`). -/

namespace Sys2Proof.Machine

/-- ExecJMP (R160): pc <- t, over the fetch's increment.  It raises nothing. -/
def execJmp (addr12 : BitVec 12) (s : State) : Answer := .next (setPc (jmpTarget addr12) s)

/-- ExecHLT (R162): halt(HALTED); the pc stays fa + 1. -/
def execHlt (s : State) : Answer := .next (halt .halted s)

end Sys2Proof.Machine
end

