-- ==== Sys2Proof/Machine/Load.lean ====
section
/-! DEFINITION. The load family (spec/41_load.md): LOD. -/

namespace Sys2Proof.Machine

/-- ExecLOD (R140): x[rd] <- MemRead(a, 1), or AddressingFault where a ≥ MEM_SIZE, with x[rd] unchanged. -/
def execLod (rd : BitVec 4) (addr8 : BitVec 8) (s : State) : Answer :=
  match memRead (lodAddress addr8) s with
  | none => .next (raise .addressing s.fetchAddr (some s.ir) (some (lodAddress addr8)) s)
  | some w => .next (writeReg rd.toNat w s)

end Sys2Proof.Machine
end

