-- ==== Sys2Proof/Machine/Dispatch.lean ====
section
/-! DEFINITION. The dispatch of step 4 (spec/40_cycle.md rule R124): one arm per instruction. -/

namespace Sys2Proof.Machine

def exec (i : Instr) (s : State) : Host.Outcome State Fault Refusal :=
  match i with
  | .lod rd addr8 => Sys2Proof.Machine.execLod rd addr8 s
  | .add rd rs => Sys2Proof.Machine.execAdd rd rs s
  | .jmp addr12 => Sys2Proof.Machine.execJmp addr12 s
  | .hlt => Sys2Proof.Machine.execHlt s

end Sys2Proof.Machine
end

