-- ==== Sys2Proof/Machine/Step.lean ====
section
/-! DEFINITION. The step of the machine (spec/00_scope.md rule R14, spec/40_cycle.md rule R120). -/

namespace Sys2Proof.Machine

/-- One step: the next agent's move. -/
def step (s : State) : Host.Outcome State Fault Refusal := machineStep exec s

/-- `s` with the given instruction placed where `step` fetches next. -/
def State.withFetchWord (s : State) (nbits w : Nat) : State := placeWord nbits w s

end Sys2Proof.Machine
end

