-- ==== Sys2Proof/Safety.lean ====
section
/-! DEFINITION. The terms claims use: how a run ends (spec/40_cycle.md rule R130), the invariant of the state between
two steps, and which kind of move comes next. -/

namespace Sys2Proof.Machine

/-- A run that ended normally (R130): HALTED or QUIT. -/
def Status.normalEnd (st : Status) : Bool := decide (st = .halted) || decide (st = .quit)

/-- A status that is one of the three fatal faults (R41). -/
def Status.isFault (st : Status) : Bool :=
  decide (st = .addressingFault) || decide (st = .decodeFault) || decide (st = .invalidOperandFault)

/-- A failed run (R130): a fault, or IO_UNAVAILABLE. -/
def Status.failedRun (st : Status) : Bool := st.isFault || decide (st = .ioUnavailable)

/-- The record is valid exactly while the status is a fault, and is of that fault's kind (R41). -/
def recordMatches (st : Status) : Option FaultRecord → Bool
  | none => !st.isFault
  | some r => decide (r.kind.status = st)

/-- The tick counter's law between iterations (R39) and its tie to the pending flag (R232): under `Ticks(T)` it is
below T, and it is 0 while an interrupt pends. -/
def timerOk (s : State) : Bool :=
  match s.cfg.timer with
  | .ticks threshold => decide (s.tick < threshold) && (!s.pending || decide (s.tick = 0))
  | .wallClock => true

/-- The invariant every step keeps: a legal configuration (R9), a pc in [0, 65536] (R33), memory in canonical form
within MEM_SIZE (R37), the timer's law, and the record's. -/
structure Inv (s : State) : Prop where
  legal : configLegal s.cfg = true
  pcRange : s.pc ≤ 65536
  memWf : Memory.wf s.mem = true
  memWithin : Memory.within s.cfg.memSize s.mem = true
  timer : timerOk s = true
  record : recordMatches s.status s.record = true

/-- The next move, and the state that makes it: the head of the list, or an iteration with a silent host. -/
def nextMove (s : State) : Move × State :=
  match s.inputs with
  | [] => (.engine silentDraws, s)
  | m :: rest => (m, { s with inputs := rest })

/-- The next move is an iteration of a running engine whose poll returns without quit; `d` are its draws and `t` the
state that makes it. -/
def runsIteration (s : State) (d : EngineDraws) (t : State) : Prop :=
  nextMove s = (.engine d, t) ∧ s.status = .running ∧ d.poll = .clear

/-- The state an instruction executes in (R120): the interrupt serviced, the word at the pc fetched and latched, the
pc at fa + 1 (R35), and the host's keyboard writes of this iteration made (R70). -/
def atExecute (d : EngineDraws) (s : State) : State :=
  kbdWrites d.kbd { serviceInterrupt s with fetchAddr := s.pc, ir := Memory.get s.mem s.pc, pc := s.pc + 1 }

end Sys2Proof.Machine
end

