-- ==== Sys2Proof/Certificates/Slice0/Obligations.lean ====
section
/-! DEFINITION. The statements about the model, each from the rules of spec/ its docstring names. -/

open Sys2Proof Sys2Proof.Machine

/-! ## Encoding (spec/30_encoding.md) -/

/-- R102, R108, R110: decoding the word of a well-formed instruction gives the instruction back, with every operand at
every value its field admits. -/
def Obligations.DecodeOfEncodeIsTheInstruction : Prop :=
  ∀ i : Instr, WellFormed i = true → decode (encode i) = .instr i

/-- R108: the decode function, its fields read as numbers: dispatch on w[15:12]; rd = w[11:8], rs = w[7:4], LOD's
address w[7:0] and JMP's target w[11:0] zero-extended; every other opcode is ILLEGAL. -/
def Obligations.DecodeReadsTheFormatFields : Prop :=
  ∀ w : Word,
    (w.toNat / 4096 = 0x1 → ∃ rd addr8, decode w = .instr (.lod rd addr8) ∧
      rd.toNat = w.toNat / 256 % 16 ∧ lodAddress addr8 = w.toNat % 256) ∧
    (w.toNat / 4096 = 0x2 → decode w = .instr (.add (w.toNat / 256 % 16) (w.toNat / 16 % 16))) ∧
    (w.toNat / 4096 = 0x4 → ∃ addr12, decode w = .instr (.jmp addr12) ∧ jmpTarget addr12 = w.toNat % 4096) ∧
    (w.toNat / 4096 = 0xF → decode w = .instr .hlt) ∧
    (w.toNat / 4096 ∉ [0x1, 0x2, 0x4, 0xF] → ∃ op, decode w = .illegal op)

/-- R104: a word encodes the instruction of a row exactly when (w & mask) = match for the row; every other word is
illegal. -/
def Obligations.OpcodeRowsMatchUnderTheMask : Prop :=
  ∀ w : Word,
    ((∃ rd addr8, decode w = .instr (.lod rd addr8)) ↔ w &&& 0xF000 = 0x1000) ∧
    ((∃ rd rs, decode w = .instr (.add rd rs)) ↔ w &&& 0xF000 = 0x2000) ∧
    ((∃ addr12, decode w = .instr (.jmp addr12)) ↔ w &&& 0xF000 = 0x4000) ∧
    (decode w = .instr .hlt ↔ w &&& 0xF000 = 0xF000) ∧
    ((∃ op, decode w = .illegal op) ↔ w &&& 0xF000 ∉ [0x1000, 0x2000, 0x4000, (0xF000 : Word)])

/-- R106: bits 3:0 of an ADD word and bits 11:0 of a HLT word take no part in decoding.  For ADD this is the spec's own
choice (92 D39). -/
def Obligations.IgnoredBitsTakeNoPart : Prop :=
  ∀ w v : Word,
    (w &&& 0xF000 = 0x2000 → decode ((w &&& 0xFFF0) ||| (v &&& 0x000F)) = decode w) ∧
    (w &&& 0xF000 = 0xF000 → decode ((w &&& 0xF000) ||| (v &&& 0x0FFF)) = decode w)

/-- R101, R106, R110: what decodes is well-formed, and encoding it again gives the word with its ignored bits 0.  That
ADD's bits 3:0 are ignored is the spec's own choice (92 D39), and so is what is written there (92 D17). -/
def Obligations.EncodeOfDecodeClearsTheIgnoredBits : Prop :=
  ∀ (w : Word) (i : Instr), decode w = .instr i → WellFormed i = true ∧
    encode i = match i with
      | .lod _ _ => w
      | .add _ _ => w &&& 0xFFF0
      | .jmp _ => w
      | .hlt => w &&& 0xF000

/-- The decode table of spec/95_test_vectors.md section 2.1, one word of each family and three illegal words.  That
ADD's bits 3:0 are ignored is the spec's own choice (92 D39). -/
def Obligations.SampleWordsDecodeAsTabled : Prop :=
  decode 0x1FFF = .instr (.lod 15 0xFF) ∧ decode 0x2F5A = .instr (.add 15 5) ∧
  decode 0x4FFF = .instr (.jmp 0xFFF) ∧ decode 0xFABC = .instr .hlt ∧
  decode 0x0000 = .illegal 0x0 ∧ decode 0x3FFF = .illegal 0x3 ∧ decode 0xE123 = .illegal 0xE

/-! ## The meanings of the instructions (spec/41, 42, 43) -/

/-- R140: LOD completes for every address below MEM_SIZE: x[rd] holds the addressed word, nothing else changes.  This
is also its frame where it does not fault. -/
def Obligations.LodLoadsTheAddressedWord : Prop :=
  ∀ (rd : BitVec 4) (addr8 : BitVec 8) (s : State), addr8.toNat < s.cfg.memSize →
    ∃ t, exec (.lod rd addr8) s = .next t ∧ readReg rd.toNat t = some (Memory.get s.mem addr8.toNat) ∧
      (∀ i, i ≠ rd.toNat → readReg i t = readReg i s) ∧ t = { s with regs := t.regs }

/-- R140, R211, R214: LOD at an address at or past MEM_SIZE takes AddressingFault: status, record and Stop event are
written, x[rd] and everything else is unchanged.  The record's fields are the spec's own choice (92 D14), and its
fault_pc and instr are the model's latched fa and instr (log 8). -/
def Obligations.LodOutOfRangeTakesAddressingFault : Prop :=
  ∀ (rd : BitVec 4) (addr8 : BitVec 8) (s : State), s.cfg.memSize ≤ addr8.toNat →
    exec (.lod rd addr8) s = .next { s with
      status := .addressingFault
      record := some ⟨.addressing, s.fetchAddr, some s.ir, some addr8.toNat⟩
      trace := s.trace ++ [.stop .addressingFault (some ⟨.addressing, s.fetchAddr, some s.ir, some addr8.toNat⟩)] }

/-- R150, R152: ADD completes for all indices in [0,16): x[rd] holds (x[rd] + x[rs]) mod 65536, both operands read
before the write (rd = rs included), nothing else changes.  This is also its frame where it does not fault. -/
def Obligations.AddStoresTheSumModulo65536 : Prop :=
  ∀ (rd rs : Nat) (s : State), rd < 16 → rs < 16 →
    ∃ a b c t, readReg rd s = some a ∧ readReg rs s = some b ∧ exec (.add rd rs) s = .next t ∧
      readReg rd t = some c ∧ c.toNat = (a.toNat + b.toNat) % 65536 ∧
      (∀ i, i ≠ rd → readReg i t = readReg i s) ∧ t = { s with regs := t.regs }

/-- R151, R214: an ADD index outside [0,16) takes InvalidOperandFault, with a status distinct from the decode fault's,
and nothing else changes; no word decodes to such an ADD.  Plain indices are the model's choice (log 15), the record's
fields the spec's own (92 D14). -/
def Obligations.AddIndexOutOfRangeTakesInvalidOperandFault : Prop :=
  (∀ (rd rs : Nat) (s : State), 16 ≤ rd ∨ 16 ≤ rs →
    exec (.add rd rs) s = .next { s with
      status := .invalidOperandFault
      record := some ⟨.invalidOperand, s.fetchAddr, some s.ir, none⟩
      trace := s.trace ++ [.stop .invalidOperandFault (some ⟨.invalidOperand, s.fetchAddr, some s.ir, none⟩)] }) ∧
  (∀ (w : Word) (rd rs : Nat), decode w = .instr (.add rd rs) → rd < 16 ∧ rs < 16) ∧
  Status.code .invalidOperandFault ≠ Status.code .decodeFault

/-- R141, R153: the frame of LOD and of ADD on every path, the faulting one included: only x[rd] among the registers,
the pc, every word of memory, the timer's state and the disk unchanged; only a fault writes the status, the record or
the trace, and it writes no register. -/
def Obligations.LodAndAddFrame : Prop :=
  ∀ (i : Instr) (r : Nat) (s t : State),
    ((∃ rd addr8, i = .lod rd addr8 ∧ r = rd.toNat) ∨ (∃ rs, i = .add r rs)) → exec i s = .next t →
    (∀ j, j ≠ r → readReg j t = readReg j s) ∧ (∀ a, Memory.get t.mem a = Memory.get s.mem a) ∧
    (t.status ≠ s.status ∨ t.record ≠ s.record ∨ t.trace ≠ s.trace →
      t.status.isFault = true ∧ t.regs = s.regs) ∧
    t = { s with regs := t.regs, status := t.status, record := t.record, trace := t.trace }

/-- R160: JMP completes in every state: the pc is exactly the target, over the fetch's increment, and nothing else
changes.  This is also its frame.  That the JMP completes where the target is at or past MEM_SIZE is the spec's own
choice (92 D15; log 18). -/
def Obligations.JmpSetsThePc : Prop :=
  ∀ (addr12 : BitVec 12) (s : State), exec (.jmp addr12) s = .next { s with pc := addr12.toNat }

/-- R162: HLT completes in every state: the status is HALTED and Stop is emitted; the pc (fa + 1) and everything else
is unchanged.  This is also its frame.  That the event carries no record is the model's choice (log 22). -/
def Obligations.HltHaltsTheRun : Prop :=
  ∀ s : State, exec .hlt s = .next { s with status := .halted, trace := s.trace ++ [.stop .halted none] }

/-- R152: add(a, b) = (a + b) mod 65536; commutative, associative, 0 its identity. -/
def Obligations.AluAddLaws : Prop :=
  ∀ a b c : Word, (aluAdd a b).toNat = (a.toNat + b.toNat) % 65536 ∧ aluAdd a b = aluAdd b a ∧
    aluAdd (aluAdd a b) c = aluAdd a (aluAdd b c) ∧ aluAdd a 0 = a

/-! ## The iteration (spec/40_cycle.md, spec/60_exceptions.md) -/

/-- R120, R123, R124, R125, R126, R35: where the word at the pc decodes to an instruction, the step is that
instruction's meaning at the state with the interrupt serviced, the word latched, the pc advanced and the host's
keyboard writes of this iteration made; where the run goes on after it, the timer advances once and Frame is emitted,
and where it stopped, neither.  That the writes fall after the fetch for every instruction is the model's deduction
(DEDUCED, log 11), and the latches fetchAddr and ir are the model's own fields (log 8). -/
def Obligations.StepRunsTheDecodedInstruction : Prop :=
  ∀ (s s0 : State) (d : EngineDraws) (i : Instr), runsIteration s d s0 → s.pc < s.cfg.memSize →
    decode (Memory.get s.mem s.pc) = .instr i →
    ∃ t, exec i (atExecute d s0) = .next t ∧
      (t.status = .running → step s = .next (emit .frame (timerTick d.fired t))) ∧
      (t.status ≠ .running → step s = .next t) ∧
      atExecute d s0 = kbdWrites d.kbd { s0 with
        pending := false, trace := if s.pending then s.trace ++ [.irqNotify] else s.trace
        fetchAddr := s.pc, ir := Memory.get s.mem s.pc, pc := s.pc + 1 } ∧
      (atExecute d s0).regs = s.regs ∧ (atExecute d s0).pc = s.pc + 1 ∧
      (atExecute d s0).fetchAddr = s.pc ∧ (atExecute d s0).ir = Memory.get s.mem s.pc ∧
      (atExecute d s0).pending = false ∧ (d.kbd = [] → (atExecute d s0).mem = s.mem)

/-- R141 at the step: a LOD that does not fault, run by a step in which the host writes nothing: x[rd] holds the
addressed word, no other register and no memory cell changed, and besides them only the pc, the timer, the trace (a
serviced interrupt's event, then Frame) and the model's own latches (log 8) changed. -/
def Obligations.LodStepFrame : Prop :=
  ∀ (s s0 : State) (d : EngineDraws) (rd : BitVec 4) (addr8 : BitVec 8), runsIteration s d s0 → d.kbd = [] →
    s.pc < s.cfg.memSize → decode (Memory.get s.mem s.pc) = .instr (.lod rd addr8) →
    addr8.toNat < s.cfg.memSize →
    ∃ t, step s = .next t ∧ readReg rd.toNat t = some (Memory.get s.mem addr8.toNat) ∧
      (∀ i, i ≠ rd.toNat → readReg i t = readReg i s) ∧
      t = { s0 with
        regs := t.regs, pc := s.pc + 1, pending := t.pending, tick := t.tick, draws := t.draws
        trace := (if s.pending then s.trace ++ [.irqNotify] else s.trace) ++ [.frame]
        fetchAddr := s.pc, ir := Memory.get s.mem s.pc }

/-- R153 at the step: an ADD run by a step: the sum modulo 65536 in x[rd], no other register changed, no memory read
and none written, and besides x[rd] only the pc, the timer, the trace and the model's own latches (log 8) changed. -/
def Obligations.AddStepFrame : Prop :=
  (∀ (s s0 : State) (d : EngineDraws) (rd rs : Nat), runsIteration s d s0 → d.kbd = [] →
    s.pc < s.cfg.memSize → decode (Memory.get s.mem s.pc) = .instr (.add rd rs) →
    ∃ a b c t, readReg rd s = some a ∧ readReg rs s = some b ∧ step s = .next t ∧ readReg rd t = some c ∧
      c.toNat = (a.toNat + b.toNat) % 65536 ∧ (∀ i, i ≠ rd → readReg i t = readReg i s) ∧
      t = { s0 with
        regs := t.regs, pc := s.pc + 1, pending := t.pending, tick := t.tick, draws := t.draws
        trace := (if s.pending then s.trace ++ [.irqNotify] else s.trace) ++ [.frame]
        fetchAddr := s.pc, ir := Memory.get s.mem s.pc }) ∧
  (∀ (rd rs : Nat) (s t : State) (m : Memory), exec (.add rd rs) s = .next t →
    exec (.add rd rs) { s with mem := m } = .next { t with mem := m })

/-- R123, R214: a fetch at or past MEM_SIZE takes AddressingFault with fault_pc = addr = fa and no word; the pc stays
fa; the interrupt has been serviced; nothing else changes.  The pc's staying and the record's fields are the spec's own
choice (92 D14; log 18), and so is the pc's range up to 65536 (92 D16). -/
def Obligations.FetchOutOfRangeTakesAddressingFault : Prop :=
  ∀ (s s0 : State) (d : EngineDraws), runsIteration s d s0 → s.cfg.memSize ≤ s.pc →
    step s = .next { s0 with
      pending := false
      status := .addressingFault
      record := some ⟨.addressing, s.pc, none, some s.pc⟩
      trace := (if s.pending then s.trace ++ [.irqNotify] else s.trace) ++
        [.stop .addressingFault (some ⟨.addressing, s.pc, none, some s.pc⟩)] }

/-- R164, R214: an unknown opcode takes DecodeFault with the word in the record; the pc holds fa + 1; registers,
memory and the timer's count are unchanged.  The record's fields are the spec's own choice (92 D14), and the latches
fetchAddr and ir are the model's own fields (log 8). -/
def Obligations.UnknownOpcodeTakesDecodeFault : Prop :=
  ∀ (s s0 : State) (d : EngineDraws) (op : BitVec 4), runsIteration s d s0 → d.kbd = [] →
    s.pc < s.cfg.memSize → decode (Memory.get s.mem s.pc) = .illegal op →
    step s = .next { s0 with
      pc := s.pc + 1
      pending := false
      status := .decodeFault
      record := some ⟨.decode, s.pc, some (Memory.get s.mem s.pc), none⟩
      trace := (if s.pending then s.trace ++ [.irqNotify] else s.trace) ++
        [.stop .decodeFault (some ⟨.decode, s.pc, some (Memory.get s.mem s.pc), none⟩)]
      fetchAddr := s.pc
      ir := Memory.get s.mem s.pc }

/-- R121, R216: a quit signal changes the status and emits Stop, and nothing else: a pending interrupt is not serviced
and stays pending.  That the event carries no record is the model's choice (log 22).  That the host may quit in any
iteration is the spec's own choice (92 D19). -/
def Obligations.QuitPreemptsTheIteration : Prop :=
  ∀ (s s0 : State) (d : EngineDraws), nextMove s = (.engine d, s0) → s.status = .running → d.poll = .quit →
    step s = .next { s0 with status := .quit, trace := s.trace ++ [.stop .quit none] }

/-- R122, R233, R234: a pending interrupt is serviced before the fetch of the same iteration: the step is the one from
the state with IrqNotify emitted and the flag cleared; the handler changes nothing else.  The default handler is the
one the spec chose to model (92 D7). -/
def Obligations.PendingInterruptIsServicedFirst : Prop :=
  ∀ (s s0 : State) (d : EngineDraws), runsIteration s d s0 → s.pending = true →
    step s = step { s with pending := false, trace := s.trace ++ [.irqNotify] }

/-- R124, R125, R126, R127: an iteration that ends stopped advances no timer and emits no Frame, and its trace ends
with Stop, carrying the record where it is a fault; one that goes on advances the timer once and emits exactly one
Frame, last.  Under Ticks(T) (R230) the advance is from the tick the iteration began with, and an interrupt pends after
it exactly where T was reached; under WallClock (R231) exactly where the timer fired, by the listed draw or by the free
value, whatever that is (log 7).  Either iteration emits IrqNotify exactly where an interrupt was pending.  That the
Stop of a HLT carries no record is the model's choice (log 22); the policies and the default handler are the spec's own
choices (92 D6, D7). -/
def Obligations.StoppedIterationSkipsTimerAndFrame : Prop :=
  ∀ (s s0 t : State) (d : EngineDraws), runsIteration s d s0 → step s = .next t →
    t.trace.count .irqNotify = s.trace.count .irqNotify + (if s.pending then 1 else 0) ∧
    (t.status ≠ .running → t.tick = s.tick ∧ t.draws = s.draws ∧ t.pending = false ∧
      t.trace.count .frame = s.trace.count .frame ∧
      (t.status.isFault = true → t.trace.getLast? = some (.stop t.status t.record)) ∧
      (t.status.isFault = false → t.trace.getLast? = some (.stop .halted none))) ∧
    (t.status = .running →
      t.trace.count .frame = s.trace.count .frame + 1 ∧ t.trace.getLast? = some .frame ∧
      (∀ threshold, s.cfg.timer = .ticks threshold →
        t.tick = (if s.tick + 1 < threshold then s.tick + 1 else 0) ∧
        (t.pending = true ↔ threshold ≤ s.tick + 1) ∧ t.draws = s.draws) ∧
      (s.cfg.timer = .wallClock →
        t.pending = d.fired.getD (Config.freeFired s.draws) ∧ t.draws = s.draws + 1))

/-- R212, which the spec infers from R120 and R124, and R214: faults are precise: an iteration that ends in a fault
has changed no register, no tick, no disk word, and no memory word where the host wrote none; its record holds the
fetch address and the word fetched, if one was.  The record's fields, and the pc's staying at a fetch that faults, are
the spec's own choice (92 D14; log 18). -/
def Obligations.FaultsArePrecise : Prop :=
  ∀ (s s0 t : State) (d : EngineDraws), runsIteration s d s0 → step s = .next t → t.status.isFault = true →
    t.regs = s.regs ∧ t.tick = s.tick ∧ t.pending = false ∧ t.disk = s.disk ∧ (d.kbd = [] → t.mem = s.mem) ∧
    t.pc = (if s.pc < s.cfg.memSize then s.pc + 1 else s.pc) ∧
    ∃ r, t.record = some r ∧ r.kind.status = t.status ∧ r.faultPc = s.pc ∧
      r.instr = (if s.pc < s.cfg.memSize then some (Memory.get s.mem s.pc) else none)

/-- R120, R129: a machine whose status is not RUNNING runs no iteration.  That the model writes this as a stop under
a name of its own is its choice (log 12).  That every such status is terminal is the spec's own choice (92 D36). -/
def Obligations.StoppedMachineRunsNoIteration : Prop :=
  ∀ (s s0 : State) (d : EngineDraws), nextMove s = (.engine d, s0) → s.status ≠ .running →
    step s = .fault (.notRunning s.status)

/-- R129, R130: only a reset leaves a stopped status; nothing else changes its record, its registers or its pc.  That
every such status is terminal is the spec's own choice (92 D36). -/
def Obligations.OnlyResetLeavesAStoppedStatus : Prop :=
  ∀ s t : State, s.status ≠ .running → step s = .next t → (∀ l, (nextMove s).1 ≠ .reset l) →
    t.status = s.status ∧ t.record = s.record ∧ t.regs = s.regs ∧ t.pc = s.pc ∧ t.pending = s.pending ∧
    t.tick = s.tick

/-- R132, R191: a poll that never returns and a disk call that never returns are hangs; a command that does not
acquire the store cannot hang.  Named stops are the model's form of a hang (log 14).  That an unsupported command
completes although the store stalls follows from neither rule: it is deduced (log 14) from the order of R183 and R190,
which decode the command before the store is acquired, the spec's own choice (92 D24; log 18). -/
def Obligations.HangsAreStops : Prop :=
  (∀ (s s0 : State) (d : EngineDraws), nextMove s = (.engine d, s0) → s.status = .running → d.poll = .never →
    step s = .fault .pollHang) ∧
  (∀ (s s0 : State) (c : DiskCall), nextMove s = (.disk c, s0) → c.draws.stalls = true →
    (c.cmd.toNat ≤ 2 → step s = .fault .diskHang) ∧ (2 < c.cmd.toNat → ∃ t, step s = .next t))

/-! ## The timer (spec/60_exceptions.md) -/

/-- R230, R39: under Ticks(T) the tick advances, and on reaching T the pending flag is set and the tick is 0; nothing
else changes.  The policy is the spec's own choice of the two the source allows (92 D6). -/
def Obligations.TicksTimerCountsToTheThreshold : Prop :=
  ∀ (s : State) (threshold : Nat) (fired : Option Bool), s.cfg.timer = .ticks threshold → 1 ≤ threshold →
    (s.tick + 1 < threshold → timerTick fired s = { s with tick := s.tick + 1 }) ∧
    (threshold ≤ s.tick + 1 → timerTick fired s = { s with tick := 0, pending := true })

/-- R230, and R232, which the spec infers from it: from tick 0, after k ticks the count is k mod T, and the flag, once
cleared, is set by exactly those ticks whose number is a multiple of T.  The policy is the spec's own choice of the
two the source allows (92 D6). -/
def Obligations.TimerFiresOncePerThreshold : Prop :=
  ∀ (s : State) (threshold k : Nat), s.cfg.timer = .ticks threshold → 1 ≤ threshold → s.tick = 0 →
    ((timerTick none)^[k] s).tick = k % threshold ∧
    ((timerTick none { (timerTick none)^[k] s with pending := false }).pending = true ↔ threshold ∣ k + 1)

/-- R231: under WallClock the flag is set exactly where the draw fired or it was set already; registers, pc, memory
and status are unchanged.  Where no draw is listed the firing is the free value: this holds for every value of it
(log 7).  That the firing is a draw is the spec's own choice (92 D6). -/
def Obligations.WallClockTimerFollowsTheDraw : Prop :=
  ∀ (s : State) (fired : Option Bool), s.cfg.timer = .wallClock →
    ∃ f, (fired = none → f = Config.freeFired s.draws) ∧ (∀ b, fired = some b → f = b) ∧
      (timerTick fired s).pending = (s.pending || f) ∧ (f = false → (timerTick fired s).tick = s.tick) ∧
      timerTick fired s = { s with
        pending := s.pending || f, tick := (timerTick fired s).tick, draws := s.draws + 1 }

/-! ## Whole-machine rules -/

/-- R9, R33, R37, R39, R41, R232: every step keeps the invariant: a legal configuration, a pc in [0, 65536], canonical
memory within MEM_SIZE, a tick below T that is 0 while an interrupt pends, a record exactly where the status is a
fault.  The legal configurations and the ranges of the pc and the tick are the spec's own choices (92 D3, D6, D10,
D16, D38). -/
def Obligations.StepKeepsTheInvariant : Prop := ∀ s t : State, Inv s → step s = .next t → Inv t

/-- R37, R47: the reset state meets the invariant.  Its configuration is TC, the model's choice (log 2). -/
def Obligations.ResetStateMeetsTheInvariant : Prop := Inv State.reset

/-- R250: every launch the spec does not refuse meets the invariant, whatever the store, REG_INIT and IO_OK.  Which
launches are refused is the spec's own choice (92 D6, D10, D30). -/
def Obligations.EveryLaunchMeetsTheInvariant : Prop :=
  ∀ (c : Config) (file : List Byte) (image : List Word) (diskInit : Option Store) (regInit : Vector Word numRegs)
    (ioOk : Bool) (inputs : List Move) (draws : Nat), launchImage c file = .ok image →
    Inv (resetState c image diskInit regInit ioOk inputs draws)

/-- R67 and R81, which the spec infers: but for a reset, a step changes no memory word outside the keyboard cell, and
none at all where the host writes none.  That the host writes nothing else rests on R67, and the moment of its write
on the spec's own choice (92 D18). -/
def Obligations.OnlyTheKeyboardCellChanges : Prop :=
  ∀ s t : State, Memory.wf s.mem = true → step s = .next t → (∀ l, (nextMove s).1 ≠ .reset l) →
    (∀ a, a ≠ s.cfg.kbdAddr → Memory.get t.mem a = Memory.get s.mem a) ∧
    (∀ d, (nextMove s).1 = .engine d → d.kbd = [] → t.mem = s.mem) ∧
    (∀ c, (nextMove s).1 = .disk c → t.mem = s.mem)

/-- R31: but for a reset, a register changes only where the engine executes a LOD or an ADD that names it as its
destination. -/
def Obligations.RegistersChangeOnlyByInstructions : Prop :=
  ∀ (s t : State) (i : Nat), step s = .next t → (∀ l, (nextMove s).1 ≠ .reset l) → readReg i t ≠ readReg i s →
    (∃ d, (nextMove s).1 = .engine d ∧ d.poll = .clear) ∧ s.pc < s.cfg.memSize ∧
    ((∃ rd addr8, decode (Memory.get s.mem s.pc) = .instr (.lod rd addr8) ∧ rd.toNat = i) ∨
     (∃ rs, decode (Memory.get s.mem s.pc) = .instr (.add i rs)))

/-- R34: who writes the pc: reset writes RESET_VECTOR, a fetch that does not fault advances it by one, JMP overwrites
it, and nothing else writes it: not the interrupt handler, the host or the disk controller.  That the pc stays where the
fetch faults is the spec's own choice (92 D14; log 18), which R123 says and R34 does not. -/
def Obligations.WhoWritesThePc : Prop :=
  ∀ s t : State, step s = .next t →
    (∀ l, (nextMove s).1 = .reset l → t.pc = s.cfg.resetVector) ∧
    (∀ v, (nextMove s).1 = .kbdWrite v → t.pc = s.pc) ∧
    (∀ c, (nextMove s).1 = .disk c → t.pc = s.pc) ∧
    (∀ d, (nextMove s).1 = .engine d → t.pc =
      if d.poll = .clear ∧ s.pc < s.cfg.memSize then
        match decode (Memory.get s.mem s.pc) with
        | .instr (.jmp addr12) => addr12.toNat
        | _ => s.pc + 1
      else s.pc)

/-- R45, which the spec infers from R38, R39 and R234: a program cannot observe the pending flag or the tick counter:
two states that differ only in them (and in the trace and the count of free values) step to states that differ only in
them, or stop alike.  The default handler, without effect, is the one the spec chose to model (92 D7). -/
def Obligations.TimerStateIsInvisibleToPrograms : Prop :=
  ∀ (s : State) (p : Bool) (n k : Nat) (tr : List Event),
    match step s, step { s with pending := p, tick := n, draws := k, trace := tr } with
    | .next t, .next u =>
      u = { t with pending := u.pending, tick := u.tick, draws := u.draws, trace := u.trace }
    | .fault q, .fault r => q = r
    | .refused q, .refused r => q = r
    | _, _ => False

/-- R9, R232: the configuration, the timer policy in it, is fixed: no step changes it. -/
def Obligations.ConfigurationIsFixed : Prop := ∀ s t : State, step s = .next t → t.cfg = s.cfg

/-! ## Memory, keyboard and video (spec/20_memory.md) -/

/-- R37 (the canonical form is the model's, log 5): two memories in canonical form that read alike are equal. -/
def Obligations.MemoriesThatReadAlikeAreEqual : Prop :=
  ∀ m n : Memory, Memory.wf m = true → Memory.wf n = true → (∀ a, Memory.get m a = Memory.get n a) → m = n

/-- R70 (its moment is the spec's own choice, 92 D18), R257: the host's keyboard write changes the keyboard cell and
the trace, and nothing else. -/
def Obligations.KeyboardWriteChangesOnlyItsCell : Prop :=
  ∀ (s s0 : State) (v : Word), nextMove s = (.kbdWrite v, s0) → Memory.wf s.mem = true →
    s.cfg.kbdAddr < s.cfg.memSize →
    ∃ t, step s = .next t ∧ Memory.get t.mem s.cfg.kbdAddr = v ∧
      (∀ a, a ≠ s.cfg.kbdAddr → Memory.get t.mem a = Memory.get s.mem a) ∧
      t = { s0 with mem := t.mem, trace := s.trace ++ [.kbdWrite v] }

/-- R70: of several writes the last wins, and a LOD of the cell in the same iteration reads it.  Where such a write
may fall is the spec's own choice (92 D18). -/
def Obligations.LastKeyboardWriteWins : Prop :=
  ∀ (s : State) (vs : List Word) (v : Word) (rd : BitVec 4) (addr8 : BitVec 8), Memory.wf s.mem = true →
    s.cfg.kbdAddr < s.cfg.memSize → addr8.toNat = s.cfg.kbdAddr →
    (kbdWrites (vs ++ [v]) s).trace = s.trace ++ (vs ++ [v]).map .kbdWrite ∧
    ∃ t, exec (.lod rd addr8) (kbdWrites (vs ++ [v]) s) = .next t ∧ readReg rd.toNat t = some v

/-- R65, R66, R72: in a legal configuration VIDEO is exactly the video cells' addresses, all in memory, and the host
may write exactly the keyboard cell.  The decoder's order, the
places and the refused overlaps are the spec's own choices (92 D8 to D11). -/
def Obligations.RegionsFixTheHostsRights : Prop :=
  ∀ (c : Config) (a : Nat), configLegal c = true →
    (region c a = .video ↔
      ∃ row col, row < c.videoRows ∧ col < c.videoCols ∧ a = videoAddr c row col ∧ a < c.memSize) ∧
    (hostMayWrite (region c a) = true ↔ a = c.kbdAddr)

/-- R72: different video cells have different addresses.  Row-major order is the spec's own choice (92 D9). -/
def Obligations.VideoCellsAreDistinct : Prop :=
  ∀ (c : Config) (row col row' col' : Nat), col < c.videoCols → col' < c.videoCols →
    videoAddr c row col = videoAddr c row' col' → row = row' ∧ col = col'

/-- R72, R68, R73: the video read of a cell returns the stored word at VIDEO_BASE + r*VIDEO_COLS + c, uninterpreted, in
a legal configuration for every cell of the region.  Row-major order is the spec's own choice (92 D9). -/
def Obligations.VideoReadReturnsTheStoredWord : Prop :=
  ∀ (s : State) (row col : Nat), configLegal s.cfg = true → row < s.cfg.videoRows → col < s.cfg.videoCols →
    videoWord row col s = some (Memory.get s.mem (s.cfg.videoBase + row * s.cfg.videoCols + col))

/-! ## The disk controller (spec/44_disk_controller.md) -/

/-- R193: the RESET command never alters the store, on either outcome. -/
def Obligations.DiskResetNeverAltersTheStore : Prop :=
  ∀ (c : DiskCall) (d : Store), c.cmd = 0 → (diskHandle c d).2 = d

/-- R185: RESET returns OK where the store is available and UNAVAILABLE where it is not, for every sector; the caller's
buffer comes back unchanged and the store stays, on both outcomes.  That RESET may report UNAVAILABLE is the spec's own
choice (92 D24, 90 C10). -/
def Obligations.DiskResetAnswersByAvailability : Prop :=
  ∀ (c : DiskCall) (d : Store), c.cmd = 0 →
    (c.draws.unavailable = false → (diskHandle c d).1.result = .ok) ∧
    (c.draws.unavailable = true → (diskHandle c d).1.result = .fault .unavailable) ∧
    (diskHandle c d).1.bufOut = c.bufIn ∧ (diskHandle c d).2 = d

/-- R183: 0 runs RESET, 1 READ, 2 WRITE; any other command is UNSUPPORTED_COMMAND, with the buffer and the store
unchanged, and non-fatal: the step is taken and the run status stays.  That it is taken although the store stalls or is
unavailable is deduced (DEDUCED, log 14) from the command's being decoded before the store is acquired, the spec's own
choice (92 D24; log 18). -/
def Obligations.DiskCommandsAreDecodedByCode : Prop :=
  ∀ (c : DiskCall) (d : Store),
    (c.cmd.toNat = 0 → diskHandle c d = diskReset c d) ∧ (c.cmd.toNat = 1 → diskHandle c d = diskRead c d) ∧
    (c.cmd.toNat = 2 → diskHandle c d = diskWrite c d) ∧
    (3 ≤ c.cmd.toNat → diskHandle c d = (⟨.fault .unsupportedCommand, c.bufIn⟩, d)) ∧
    (3 ≤ c.cmd.toNat → ∀ s s0 : State, nextMove s = (.disk c, s0) →
      ∃ t, step s = .next t ∧ t.status = s.status ∧ t.disk = s.disk)

/-- R186: a READ of a sector that lies in the store returns its 1024 words, of any other sector SHORT_READ, and
UNAVAILABLE where the store cannot be opened; the store is unchanged on every outcome.  The buffer after a fault is
any value: this says nothing of it.  Availability as a draw and the buffer after a fault are the spec's own choices
(92 D24, D22). -/
def Obligations.DiskReadReturnsTheSector : Prop :=
  ∀ (c : DiskCall) (d : Store), c.cmd = 1 →
    (diskHandle c d).2 = d ∧
    (c.draws.unavailable = true → (diskHandle c d).1.result = .fault .unavailable) ∧
    (c.draws.unavailable = false → d.length < c.sector.toNat * 1024 + 1024 →
      (diskHandle c d).1.result = .fault .shortRead) ∧
    (c.draws.unavailable = false → c.sector.toNat * 1024 + 1024 ≤ d.length →
      (diskHandle c d).1.result = .ok ∧
      ∀ i, i < 1024 → (diskHandle c d).1.bufOut.1[i]? = d[c.sector.toNat * 1024 + i]?)

/-- R187: a WRITE that returns OK: the sector holds the buffer, the words before the old end and outside the sector
are unchanged, the store grows to max(L, (s+1)*1024), the caller's buffer is unchanged.  That the gap words are 0 is
the spec's general knowledge (93 G1; log 16).  Availability and shortness as draws are the spec's own choice (92
D24). -/
def Obligations.DiskWriteStoresTheSector : Prop :=
  ∀ (c : DiskCall) (d : Store), c.cmd = 2 → c.draws.unavailable = false → c.draws.shortWrite = false →
    (diskHandle c d).1 = ⟨.ok, c.bufIn⟩ ∧
    (diskHandle c d).2.length = max d.length (c.sector.toNat * 1024 + 1024) ∧
    ∀ i, i < max d.length (c.sector.toNat * 1024 + 1024) → (diskHandle c d).2[i]? =
      if c.sector.toNat * 1024 ≤ i ∧ i < c.sector.toNat * 1024 + 1024 then
        c.bufIn.1[i - c.sector.toNat * 1024]?
      else if i < d.length then d[i]? else some 0

/-- R184, R187, R188: a WRITE that finds the store unavailable returns UNAVAILABLE, one that finds it available and is
short returns SHORT_WRITE, and no other WRITE fails.  A WRITE that fails leaves a store within the rule's bounds: at
least L and at most max(L, (s+1)*1024) words, unchanged before the sector and behind it; the caller's buffer is
unchanged.  The bounds are the spec's own choice (92 D23), and so are the two draws (92 D24). -/
def Obligations.FailedWriteStaysWithinTheSector : Prop :=
  ∀ (c : DiskCall) (d : Store), c.cmd = 2 →
    (c.draws.unavailable = true → (diskHandle c d).1.result = .fault .unavailable) ∧
    (c.draws.unavailable = false → c.draws.shortWrite = true → (diskHandle c d).1.result = .fault .shortWrite) ∧
    ((diskHandle c d).1.result = .ok ↔ c.draws.unavailable = false ∧ c.draws.shortWrite = false) ∧
    ((diskHandle c d).1.result ≠ .ok →
      d.length ≤ (diskHandle c d).2.length ∧
      (diskHandle c d).2.length ≤ max d.length (c.sector.toNat * 1024 + 1024) ∧
      (∀ i, i < min d.length (c.sector.toNat * 1024) → (diskHandle c d).2[i]? = d[i]?) ∧
      (∀ i, c.sector.toNat * 1024 + 1024 ≤ i → i < d.length → (diskHandle c d).2[i]? = d[i]?) ∧
      (diskHandle c d).1.bufOut = c.bufIn)

/-- R188: every store within the bounds of FailedWriteStaysWithinTheSector is one a failed WRITE can leave: some WRITE
of the sector that finds the store unavailable leaves it, and so does some WRITE that is short; neither stalls.  The
bounds are the spec's own choice (92 D23), and the landed words that reach each store are the model's draw (log 17). -/
def Obligations.FailedWriteReachesEveryAllowedStore : Prop :=
  ∀ (d e : Store) (sector : Word), d.length ≤ e.length → e.length ≤ max d.length (sector.toNat * 1024 + 1024) →
    (∀ i, i < min d.length (sector.toNat * 1024) → e[i]? = d[i]?) →
    (∀ i, sector.toNat * 1024 + 1024 ≤ i → i < d.length → e[i]? = d[i]?) →
    ∀ r, r = .unavailable ∨ r = .shortWrite →
      ∃ c : DiskCall, c.cmd = 2 ∧ c.sector = sector ∧ c.draws.stalls = false ∧
        (diskHandle c d).1.result = .fault r ∧ (diskHandle c d).2 = e

/-- R192, which the spec infers from R186 and R187: after a WRITE that returned OK, and any calls none of which is a
WRITE of the same sector, a READ of the sector that returns OK returns the written buffer.  That a failed WRITE of
another sector keeps this one is the spec's own choice (92 D23). -/
def Obligations.WriteThenReadReturnsTheBuffer : Prop :=
  ∀ (d : Store) (w r : DiskCall) (calls : List DiskCall), w.cmd = 2 → (diskHandle w d).1.result = .ok →
    (∀ c ∈ calls, ¬ (c.cmd = 2 ∧ c.sector = w.sector)) → r.cmd = 1 → r.sector = w.sector →
    (diskHandle r (calls.foldl (fun e c => (diskHandle c e).2) (diskHandle w d).2)).1.result = .ok →
    (diskHandle r (calls.foldl (fun e c => (diskHandle c e).2) (diskHandle w d).2)).1.bufOut = w.bufIn

/-- R180, R188, R189: a disk call that returns changes the store, the port's outputs and the trace, and nothing else:
no register, no pc, no memory word, no pending flag, no tick, no run status.  That the controller is a port of the
host is the spec's own choice (92 D20). -/
def Obligations.DiskCallLeavesTheEngine : Prop :=
  ∀ (s s0 : State) (c : DiskCall), nextMove s = (.disk c, s0) → c.draws.stalls = false →
    step s = .next { s0 with
      disk := (diskHandle c s.disk).2
      diskOut := some (diskHandle c s.disk).1
      trace := s.trace ++ [.disk c.cmd c.sector (diskHandle c s.disk).1.result] }

/-- R255: no step but a disk call changes the store, a reset included; a reset of a machine whose store is absent
creates it, DISK_CREATE_WORDS words of 0. -/
def Obligations.ResetLeavesTheStore : Prop :=
  (∀ s t : State, step s = .next t → (∀ c, (nextMove s).1 ≠ .disk c) → t.disk = s.disk) ∧
  (∀ (c : Config) (image : List Word) (regInit : Vector Word numRegs) (ioOk : Bool) (inputs : List Move)
    (draws : Nat), (resetState c image none regInit ioOk inputs draws).disk = List.replicate c.diskCreateWords 0)

/-! ## Reset and loading (spec/70_reset_and_hazards.md) -/

/-- R251, R252, and R253, which the spec infers from them: after a reset memory holds the program image, behind it the
first ROM_SIZE words of the disk, and 0 everywhere else.  That the image wins where they overlap is the spec's own
choice (92 D11). -/
def Obligations.ResetMemoryHoldsTheLoads : Prop :=
  ∀ (c : Config) (image : List Word) (diskInit : Option Store) (regInit : Vector Word numRegs) (ioOk : Bool)
    (inputs : List Move) (draws i : Nat),
    Memory.get (resetState c image diskInit regInit ioOk inputs draws).mem i =
      if i < image.length then image.getD i 0
      else if i < min c.romSize (initialStore c diskInit).length then (initialStore c diskInit).getD i 0
      else 0

/-- R47, R250: the values a reset leaves in every other part of the state, for every configuration and every launch.
Those of pending and tick are the spec's own choice (92 D33).  REG_INIT as a draw and the absent record are its own
choices too (92 D4, D14). -/
def Obligations.ResetLeavesTheTabledValues : Prop :=
  ∀ (c : Config) (image : List Word) (diskInit : Option Store) (regInit : Vector Word numRegs) (ioOk : Bool)
    (inputs : List Move) (draws : Nat), ∃ s, s = resetState c image diskInit regInit ioOk inputs draws ∧
    s.regs = regInit ∧ s.pc = c.resetVector ∧ s.pending = false ∧ s.tick = 0 ∧ s.record = none ∧ s.trace = [] ∧
    s.status = (if ioOk then .running else .ioUnavailable)

/-- The state after reset is the launch of the configuration TC with an empty image, no disk image, REG_INIT = 0 and
I/O available: the model's choices (log 2, log 3, log 4). -/
def Obligations.ResetStateIsALaunch : Prop :=
  launchImage Config.tc [] = .ok [] ∧
  State.reset = resetState Config.tc [] none (Vector.replicate numRegs 0) true [] 0

/-- R250, R252, R9: the host's reset is the launch of its program file over the persistent store; it is refused in a
configuration outside the legal values, for an odd number of bytes, and for more than MEM_SIZE words.  The refusals are
the spec's own choice (92 D6, D10, D30); a reset as a move of the host is the model's form (log 13). -/
def Obligations.HostResetLaunchesOrIsRefused : Prop :=
  ∀ (s s0 : State) (l : Launch), nextMove s = (.reset l, s0) →
    (configLegal s.cfg = false → step s = .refused .configRefused) ∧
    (configLegal s.cfg = true → l.file.length % 2 = 1 → step s = .refused .imageOddBytes) ∧
    (configLegal s.cfg = true → l.file.length % 2 = 0 → 2 * s.cfg.memSize < l.file.length →
      step s = .refused .imageTooLarge) ∧
    (configLegal s.cfg = true → l.file.length % 2 = 0 → l.file.length ≤ 2 * s.cfg.memSize →
      ∃ image, imageOfFile s.cfg.fileByteOrder l.file = some image ∧ 2 * image.length = l.file.length ∧
        step s = .next (resetState s.cfg image (some s.disk) l.regInit l.ioOk s0.inputs s.draws))

/-- R217: where IO_OK is false the status is IO_UNAVAILABLE from the start; a machine of that status runs no iteration,
whatever its draws, whether as its first move or later; and every other move but a reset keeps the status, and leaves
the registers, the pc and what was last fetched.  The named stop that an iteration answers is the model's choice
(log 12).  That the status is terminal is the spec's own choice (92 D36). -/
def Obligations.IoUnavailableRunsNothing : Prop :=
  (∀ (c : Config) (image : List Word) (diskInit : Option Store) (regInit : Vector Word numRegs) (inputs : List Move)
    (draws : Nat), (resetState c image diskInit regInit false inputs draws).status = .ioUnavailable) ∧
  ∀ s : State, s.status = .ioUnavailable →
    (∀ d, (nextMove s).1 = .engine d → step s = .fault (.notRunning .ioUnavailable)) ∧
    (∀ t, step s = .next t → (∀ l, (nextMove s).1 ≠ .reset l) →
      t.status = .ioUnavailable ∧ t.regs = s.regs ∧ t.pc = s.pc ∧ t.fetchAddr = s.fetchAddr ∧ t.ir = s.ir)

/-- R194, R252: a word sequence written to a file, two bytes a word, is read back from it, in either byte order; word i
is the bytes 2i and 2i+1.  The byte order is OPEN (92 D12), so this holds for both. -/
def Obligations.ImageFilesRoundTrip : Prop :=
  ∀ (order : ByteOrder) (ws : List Word),
    imageOfFile order (fileOfImage order ws) = some ws ∧ (fileOfImage order ws).length = 2 * ws.length ∧
    ∀ i w, ws[i]? = some w →
      (fileOfImage order ws)[2 * i]? = (bytesOfWord order w)[0]? ∧
      (fileOfImage order ws)[2 * i + 1]? = (bytesOfWord order w)[1]?

/-- R195, R213: the status codes and the disk port's result codes are the tabled numbers, so every two outcomes are
distinguishable.  The numbers are the spec's own choice (92 D13, D21). -/
def Obligations.CodesAreAsTabled : Prop :=
  [Status.running, .halted, .quit, .addressingFault, .decodeFault, .invalidOperandFault, .ioUnavailable].map
    Status.code = [0, 1, 2, 3, 4, 5, 6] ∧
  [DiskResult.ok, .fault .unsupportedCommand, .fault .unavailable, .fault .shortRead, .fault .shortWrite].map
    DiskResult.code = [0, 1, 2, 3, 4] ∧
  ∀ p q : Status, p.code = q.code → p = q
end

