-- ==== Sys2Proof/Laws/Memory.lean ====
section
/-! SUPPORT. The laws of the memory list: reading after a write, and that every memory operation keeps the canonical
form and the bound on addresses. -/

namespace Sys2Proof.Machine

@[simp] theorem Memory.get_nil (a : Nat) : Memory.get [] a = 0 := rfl

@[simp] theorem Memory.wf_nil : Memory.wf [] = true := rfl

@[simp] theorem Memory.within_nil (n : Nat) : Memory.within n [] = true := rfl

@[simp] theorem Memory.load_nil (m : Memory) (a : Nat) : Memory.load m a [] = m := rfl

@[simp] theorem Memory.load_cons (m : Memory) (a : Nat) (w : Word) (ws : List Word) :
    Memory.load m a (w :: ws) = Memory.load (Memory.set m a w) (a + 1) ws := rfl

theorem Memory.wf_cons {a : Nat} {v : Word} {m : Memory} :
    Memory.wf ((a, v) :: m) = true ↔ v ≠ 0 ∧ (∀ c ∈ m, a < c.1) ∧ Memory.wf m = true := by
  simp [Memory.wf, and_assoc]

theorem Memory.within_iff {n : Nat} {m : Memory} : Memory.within n m = true ↔ ∀ c ∈ m, c.1 < n := by
  simp [Memory.within]

/-- Below the first listed address nothing is listed. -/
theorem Memory.get_eq_zero_of_lt {m : Memory} {a : Nat} (h : ∀ c ∈ m, a < c.1) : Memory.get m a = 0 := by
  induction m with
  | nil => rfl
  | cons c m ih =>
    obtain ⟨b, w⟩ := c
    have hb : a < b := h (b, w) (by simp)
    rw [Memory.get, if_neg (by omega)]
    exact ih fun c hc => h c (List.mem_cons_of_mem _ hc)

/-- Every cell of a memory after a write is the written one or an old one. -/
theorem Memory.mem_set {m : Memory} {a : Nat} {v : Word} {c : Nat × Word} (h : c ∈ Memory.set m a v) :
    c = (a, v) ∨ c ∈ m := by
  induction m with
  | nil =>
    rw [Memory.set] at h
    split at h
    · simp at h
    · exact .inl (by simpa using h)
  | cons d m ih =>
    obtain ⟨b, w⟩ := d
    rw [Memory.set] at h
    split at h
    · split at h
      · exact .inr h
      · simpa using h
    · split at h
      · split at h
        · exact .inr (List.mem_cons_of_mem _ h)
        · rcases List.mem_cons.1 h with h | h
          · exact .inl h
          · exact .inr (List.mem_cons_of_mem _ h)
      · rcases List.mem_cons.1 h with h | h
        · exact .inr (by simp [h])
        · rcases ih h with h | h
          · exact .inl h
          · exact .inr (List.mem_cons_of_mem _ h)

/-- A write keeps the canonical form. -/
theorem Memory.wf_set {m : Memory} (a : Nat) (v : Word) (h : Memory.wf m = true) :
    Memory.wf (Memory.set m a v) = true := by
  induction m with
  | nil =>
    rw [Memory.set]
    split
    · rfl
    · next hv => exact Memory.wf_cons.2 ⟨hv, by simp, rfl⟩
  | cons d m ih =>
    obtain ⟨b, w⟩ := d
    have ⟨hw, hb, hm⟩ := Memory.wf_cons.1 h
    rw [Memory.set]
    split
    · next hab =>
      split
      · exact h
      · next hv =>
        refine Memory.wf_cons.2 ⟨hv, fun c hc => ?_, h⟩
        rcases List.mem_cons.1 hc with rfl | hc
        · exact hab
        · have := hb c hc; omega
    · split
      · next hab =>
        subst hab
        split
        · exact hm
        · next hv => exact Memory.wf_cons.2 ⟨hv, hb, hm⟩
      · refine Memory.wf_cons.2 ⟨hw, fun c hc => ?_, ih hm⟩
        rcases Memory.mem_set hc with rfl | hc
        · simp only; omega
        · exact hb c hc

/-- A write below the bound keeps the bound. -/
theorem Memory.within_set {n : Nat} {m : Memory} {a : Nat} (v : Word) (ha : a < n)
    (h : Memory.within n m = true) : Memory.within n (Memory.set m a v) = true := by
  rw [Memory.within_iff] at *
  intro c hc
  rcases Memory.mem_set hc with rfl | hc
  · exact ha
  · exact h c hc

/-- Reading after a write: the written word at its address, the old word everywhere else. -/
theorem Memory.get_set {m : Memory} (a b : Nat) (v : Word) (h : Memory.wf m = true) :
    Memory.get (Memory.set m a v) b = if b = a then v else Memory.get m b := by
  induction m with
  | nil =>
    rw [Memory.set]
    split
    · next hv => simp [hv]
    · rfl
  | cons d m ih =>
    obtain ⟨c, w⟩ := d
    have ⟨_, hc, hm⟩ := Memory.wf_cons.1 h
    rw [Memory.set]
    split
    · next hac =>
      split
      · next hv =>
        split
        · next hba =>
          subst hba hv
          refine Memory.get_eq_zero_of_lt fun e he => ?_
          rcases List.mem_cons.1 he with rfl | he
          · exact hac
          · have := hc e he; omega
        · rfl
      · simp only [Memory.get]
    · split
      · next hac =>
        subst hac
        split
        · next hv =>
          split
          · next hba => subst hba hv; exact Memory.get_eq_zero_of_lt hc
          · next hba => simp only [Memory.get, if_neg hba]
        · by_cases hba : b = a <;> simp [Memory.get, hba]
      · next hca hac =>
        by_cases hbc : b = c
        · subst hbc; simp [Memory.get, Ne.symm hac]
        · simp only [Memory.get, if_neg hbc, ih hm]

/-- The loaders keep the canonical form. -/
theorem Memory.wf_load {m : Memory} (a : Nat) (ws : List Word) (h : Memory.wf m = true) :
    Memory.wf (Memory.load m a ws) = true := by
  induction ws generalizing m a with
  | nil => exact h
  | cons w ws ih => exact ih _ (Memory.wf_set a w h)

/-- The loaders keep the bound where the words end below it. -/
theorem Memory.within_load {n : Nat} {m : Memory} {a : Nat} {ws : List Word} (hn : a + ws.length ≤ n)
    (h : Memory.within n m = true) : Memory.within n (Memory.load m a ws) = true := by
  induction ws generalizing m a with
  | nil => exact h
  | cons w ws ih =>
    rw [List.length_cons] at hn
    exact ih (by omega) (Memory.within_set w (by omega) h)

/-- What the loaders leave: the loaded words in order from the start address, the old words everywhere else. -/
theorem Memory.get_load {m : Memory} (a b : Nat) (ws : List Word) (h : Memory.wf m = true) :
    Memory.get (Memory.load m a ws) b =
      if a ≤ b ∧ b < a + ws.length then ws.getD (b - a) 0 else Memory.get m b := by
  induction ws generalizing m a with
  | nil => rw [if_neg (by simp only [List.length_nil]; omega), Memory.load_nil]
  | cons w ws ih =>
    rw [Memory.load_cons, ih _ (Memory.wf_set a w h), Memory.get_set a b w h, List.length_cons]
    by_cases hba : b = a
    · subst hba; simp
    · simp only [if_neg hba]
      by_cases hr : a + 1 ≤ b ∧ b < a + 1 + ws.length
      · rw [if_pos hr, if_pos (by omega), show b - a = (b - (a + 1)) + 1 by omega, List.getD_cons_succ]
      · rw [if_neg hr, if_neg (by omega)]

end Sys2Proof.Machine
end

