-- ==== Sys2Proof/Laws/State.lean ====
section
/-! SUPPORT. What each state update leaves in each field, one lemma per field per update, so that no later proof
unfolds a record update. -/

namespace Sys2Proof.Machine

@[simp] theorem memWrite_cfg (a : Nat) (v : Word) (s : State) : (memWrite a v s).cfg = s.cfg := rfl
@[simp] theorem memWrite_regs (a : Nat) (v : Word) (s : State) : (memWrite a v s).regs = s.regs := rfl
@[simp] theorem memWrite_pc (a : Nat) (v : Word) (s : State) : (memWrite a v s).pc = s.pc := rfl
@[simp] theorem memWrite_mem (a : Nat) (v : Word) (s : State) :
    (memWrite a v s).mem = if a < s.cfg.memSize then Memory.set s.mem a v else s.mem := rfl
@[simp] theorem memWrite_pending (a : Nat) (v : Word) (s : State) : (memWrite a v s).pending = s.pending := rfl
@[simp] theorem memWrite_tick (a : Nat) (v : Word) (s : State) : (memWrite a v s).tick = s.tick := rfl
@[simp] theorem memWrite_status (a : Nat) (v : Word) (s : State) : (memWrite a v s).status = s.status := rfl
@[simp] theorem memWrite_record (a : Nat) (v : Word) (s : State) : (memWrite a v s).record = s.record := rfl
@[simp] theorem memWrite_disk (a : Nat) (v : Word) (s : State) : (memWrite a v s).disk = s.disk := rfl
@[simp] theorem memWrite_diskOut (a : Nat) (v : Word) (s : State) : (memWrite a v s).diskOut = s.diskOut := rfl
@[simp] theorem memWrite_trace (a : Nat) (v : Word) (s : State) : (memWrite a v s).trace = s.trace := rfl
@[simp] theorem memWrite_fetchAddr (a : Nat) (v : Word) (s : State) : (memWrite a v s).fetchAddr = s.fetchAddr := rfl
@[simp] theorem memWrite_ir (a : Nat) (v : Word) (s : State) : (memWrite a v s).ir = s.ir := rfl
@[simp] theorem memWrite_inputs (a : Nat) (v : Word) (s : State) : (memWrite a v s).inputs = s.inputs := rfl
@[simp] theorem memWrite_draws (a : Nat) (v : Word) (s : State) : (memWrite a v s).draws = s.draws := rfl

@[simp] theorem writeReg_cfg (i : Nat) (v : Word) (s : State) : (writeReg i v s).cfg = s.cfg := rfl
@[simp] theorem writeReg_regs (i : Nat) (v : Word) (s : State) :
    (writeReg i v s).regs = s.regs.setIfInBounds i v := rfl
@[simp] theorem writeReg_pc (i : Nat) (v : Word) (s : State) : (writeReg i v s).pc = s.pc := rfl
@[simp] theorem writeReg_mem (i : Nat) (v : Word) (s : State) : (writeReg i v s).mem = s.mem := rfl
@[simp] theorem writeReg_pending (i : Nat) (v : Word) (s : State) : (writeReg i v s).pending = s.pending := rfl
@[simp] theorem writeReg_tick (i : Nat) (v : Word) (s : State) : (writeReg i v s).tick = s.tick := rfl
@[simp] theorem writeReg_status (i : Nat) (v : Word) (s : State) : (writeReg i v s).status = s.status := rfl
@[simp] theorem writeReg_record (i : Nat) (v : Word) (s : State) : (writeReg i v s).record = s.record := rfl
@[simp] theorem writeReg_disk (i : Nat) (v : Word) (s : State) : (writeReg i v s).disk = s.disk := rfl
@[simp] theorem writeReg_diskOut (i : Nat) (v : Word) (s : State) : (writeReg i v s).diskOut = s.diskOut := rfl
@[simp] theorem writeReg_trace (i : Nat) (v : Word) (s : State) : (writeReg i v s).trace = s.trace := rfl
@[simp] theorem writeReg_fetchAddr (i : Nat) (v : Word) (s : State) : (writeReg i v s).fetchAddr = s.fetchAddr := rfl
@[simp] theorem writeReg_ir (i : Nat) (v : Word) (s : State) : (writeReg i v s).ir = s.ir := rfl
@[simp] theorem writeReg_inputs (i : Nat) (v : Word) (s : State) : (writeReg i v s).inputs = s.inputs := rfl
@[simp] theorem writeReg_draws (i : Nat) (v : Word) (s : State) : (writeReg i v s).draws = s.draws := rfl

@[simp] theorem setPc_cfg (t : Nat) (s : State) : (setPc t s).cfg = s.cfg := rfl
@[simp] theorem setPc_regs (t : Nat) (s : State) : (setPc t s).regs = s.regs := rfl
@[simp] theorem setPc_pc (t : Nat) (s : State) : (setPc t s).pc = t := rfl
@[simp] theorem setPc_mem (t : Nat) (s : State) : (setPc t s).mem = s.mem := rfl
@[simp] theorem setPc_pending (t : Nat) (s : State) : (setPc t s).pending = s.pending := rfl
@[simp] theorem setPc_tick (t : Nat) (s : State) : (setPc t s).tick = s.tick := rfl
@[simp] theorem setPc_status (t : Nat) (s : State) : (setPc t s).status = s.status := rfl
@[simp] theorem setPc_record (t : Nat) (s : State) : (setPc t s).record = s.record := rfl
@[simp] theorem setPc_disk (t : Nat) (s : State) : (setPc t s).disk = s.disk := rfl
@[simp] theorem setPc_diskOut (t : Nat) (s : State) : (setPc t s).diskOut = s.diskOut := rfl
@[simp] theorem setPc_trace (t : Nat) (s : State) : (setPc t s).trace = s.trace := rfl
@[simp] theorem setPc_fetchAddr (t : Nat) (s : State) : (setPc t s).fetchAddr = s.fetchAddr := rfl
@[simp] theorem setPc_ir (t : Nat) (s : State) : (setPc t s).ir = s.ir := rfl
@[simp] theorem setPc_inputs (t : Nat) (s : State) : (setPc t s).inputs = s.inputs := rfl
@[simp] theorem setPc_draws (t : Nat) (s : State) : (setPc t s).draws = s.draws := rfl

@[simp] theorem emit_cfg (e : Event) (s : State) : (emit e s).cfg = s.cfg := rfl
@[simp] theorem emit_regs (e : Event) (s : State) : (emit e s).regs = s.regs := rfl
@[simp] theorem emit_pc (e : Event) (s : State) : (emit e s).pc = s.pc := rfl
@[simp] theorem emit_mem (e : Event) (s : State) : (emit e s).mem = s.mem := rfl
@[simp] theorem emit_pending (e : Event) (s : State) : (emit e s).pending = s.pending := rfl
@[simp] theorem emit_tick (e : Event) (s : State) : (emit e s).tick = s.tick := rfl
@[simp] theorem emit_status (e : Event) (s : State) : (emit e s).status = s.status := rfl
@[simp] theorem emit_record (e : Event) (s : State) : (emit e s).record = s.record := rfl
@[simp] theorem emit_disk (e : Event) (s : State) : (emit e s).disk = s.disk := rfl
@[simp] theorem emit_diskOut (e : Event) (s : State) : (emit e s).diskOut = s.diskOut := rfl
@[simp] theorem emit_trace (e : Event) (s : State) : (emit e s).trace = s.trace ++ [e] := rfl
@[simp] theorem emit_fetchAddr (e : Event) (s : State) : (emit e s).fetchAddr = s.fetchAddr := rfl
@[simp] theorem emit_ir (e : Event) (s : State) : (emit e s).ir = s.ir := rfl
@[simp] theorem emit_inputs (e : Event) (s : State) : (emit e s).inputs = s.inputs := rfl
@[simp] theorem emit_draws (e : Event) (s : State) : (emit e s).draws = s.draws := rfl

@[simp] theorem raise_cfg (k : FaultKind) (fa : Nat) (w : Option Word) (a : Option Nat) (s : State) :
    (raise k fa w a s).cfg = s.cfg := rfl
@[simp] theorem raise_regs (k : FaultKind) (fa : Nat) (w : Option Word) (a : Option Nat) (s : State) :
    (raise k fa w a s).regs = s.regs := rfl
@[simp] theorem raise_pc (k : FaultKind) (fa : Nat) (w : Option Word) (a : Option Nat) (s : State) :
    (raise k fa w a s).pc = s.pc := rfl
@[simp] theorem raise_mem (k : FaultKind) (fa : Nat) (w : Option Word) (a : Option Nat) (s : State) :
    (raise k fa w a s).mem = s.mem := rfl
@[simp] theorem raise_pending (k : FaultKind) (fa : Nat) (w : Option Word) (a : Option Nat) (s : State) :
    (raise k fa w a s).pending = s.pending := rfl
@[simp] theorem raise_tick (k : FaultKind) (fa : Nat) (w : Option Word) (a : Option Nat) (s : State) :
    (raise k fa w a s).tick = s.tick := rfl
@[simp] theorem raise_status (k : FaultKind) (fa : Nat) (w : Option Word) (a : Option Nat) (s : State) :
    (raise k fa w a s).status = k.status := rfl
@[simp] theorem raise_record (k : FaultKind) (fa : Nat) (w : Option Word) (a : Option Nat) (s : State) :
    (raise k fa w a s).record = some ⟨k, fa, w, a⟩ := rfl
@[simp] theorem raise_disk (k : FaultKind) (fa : Nat) (w : Option Word) (a : Option Nat) (s : State) :
    (raise k fa w a s).disk = s.disk := rfl
@[simp] theorem raise_diskOut (k : FaultKind) (fa : Nat) (w : Option Word) (a : Option Nat) (s : State) :
    (raise k fa w a s).diskOut = s.diskOut := rfl
@[simp] theorem raise_trace (k : FaultKind) (fa : Nat) (w : Option Word) (a : Option Nat) (s : State) :
    (raise k fa w a s).trace = s.trace ++ [.stop k.status (some ⟨k, fa, w, a⟩)] := rfl
@[simp] theorem raise_fetchAddr (k : FaultKind) (fa : Nat) (w : Option Word) (a : Option Nat) (s : State) :
    (raise k fa w a s).fetchAddr = s.fetchAddr := rfl
@[simp] theorem raise_ir (k : FaultKind) (fa : Nat) (w : Option Word) (a : Option Nat) (s : State) :
    (raise k fa w a s).ir = s.ir := rfl
@[simp] theorem raise_inputs (k : FaultKind) (fa : Nat) (w : Option Word) (a : Option Nat) (s : State) :
    (raise k fa w a s).inputs = s.inputs := rfl
@[simp] theorem raise_draws (k : FaultKind) (fa : Nat) (w : Option Word) (a : Option Nat) (s : State) :
    (raise k fa w a s).draws = s.draws := rfl

@[simp] theorem halt_cfg (st : Status) (s : State) : (halt st s).cfg = s.cfg := rfl
@[simp] theorem halt_regs (st : Status) (s : State) : (halt st s).regs = s.regs := rfl
@[simp] theorem halt_pc (st : Status) (s : State) : (halt st s).pc = s.pc := rfl
@[simp] theorem halt_mem (st : Status) (s : State) : (halt st s).mem = s.mem := rfl
@[simp] theorem halt_pending (st : Status) (s : State) : (halt st s).pending = s.pending := rfl
@[simp] theorem halt_tick (st : Status) (s : State) : (halt st s).tick = s.tick := rfl
@[simp] theorem halt_status (st : Status) (s : State) : (halt st s).status = st := rfl
@[simp] theorem halt_record (st : Status) (s : State) : (halt st s).record = s.record := rfl
@[simp] theorem halt_disk (st : Status) (s : State) : (halt st s).disk = s.disk := rfl
@[simp] theorem halt_diskOut (st : Status) (s : State) : (halt st s).diskOut = s.diskOut := rfl
@[simp] theorem halt_trace (st : Status) (s : State) : (halt st s).trace = s.trace ++ [.stop st none] := rfl
@[simp] theorem halt_fetchAddr (st : Status) (s : State) : (halt st s).fetchAddr = s.fetchAddr := rfl
@[simp] theorem halt_ir (st : Status) (s : State) : (halt st s).ir = s.ir := rfl
@[simp] theorem halt_inputs (st : Status) (s : State) : (halt st s).inputs = s.inputs := rfl
@[simp] theorem halt_draws (st : Status) (s : State) : (halt st s).draws = s.draws := rfl

@[simp] theorem kbdWrite_cfg (v : Word) (s : State) : (kbdWrite v s).cfg = s.cfg := rfl
@[simp] theorem kbdWrite_regs (v : Word) (s : State) : (kbdWrite v s).regs = s.regs := rfl
@[simp] theorem kbdWrite_pc (v : Word) (s : State) : (kbdWrite v s).pc = s.pc := rfl
@[simp] theorem kbdWrite_mem (v : Word) (s : State) :
    (kbdWrite v s).mem = if s.cfg.kbdAddr < s.cfg.memSize then Memory.set s.mem s.cfg.kbdAddr v else s.mem := rfl
@[simp] theorem kbdWrite_pending (v : Word) (s : State) : (kbdWrite v s).pending = s.pending := rfl
@[simp] theorem kbdWrite_tick (v : Word) (s : State) : (kbdWrite v s).tick = s.tick := rfl
@[simp] theorem kbdWrite_status (v : Word) (s : State) : (kbdWrite v s).status = s.status := rfl
@[simp] theorem kbdWrite_record (v : Word) (s : State) : (kbdWrite v s).record = s.record := rfl
@[simp] theorem kbdWrite_disk (v : Word) (s : State) : (kbdWrite v s).disk = s.disk := rfl
@[simp] theorem kbdWrite_diskOut (v : Word) (s : State) : (kbdWrite v s).diskOut = s.diskOut := rfl
@[simp] theorem kbdWrite_trace (v : Word) (s : State) : (kbdWrite v s).trace = s.trace ++ [.kbdWrite v] := rfl
@[simp] theorem kbdWrite_fetchAddr (v : Word) (s : State) : (kbdWrite v s).fetchAddr = s.fetchAddr := rfl
@[simp] theorem kbdWrite_ir (v : Word) (s : State) : (kbdWrite v s).ir = s.ir := rfl
@[simp] theorem kbdWrite_inputs (v : Word) (s : State) : (kbdWrite v s).inputs = s.inputs := rfl
@[simp] theorem kbdWrite_draws (v : Word) (s : State) : (kbdWrite v s).draws = s.draws := rfl

end Sys2Proof.Machine
end

