-- ==== Sys2Proof/Laws/Ops.lean ====
section
/-! SUPPORT. One lemma per shared operation that says everything it does: register access, MemRead, MemWrite, operand
assembly, the ALU, the keyboard writes. -/

namespace Sys2Proof.Machine

/-- A register file read answers exactly for the indices in [0,16). -/
theorem readReg_eq_none {i : Nat} {s : State} : readReg i s = none ↔ numRegs ≤ i := by
  simp [readReg]

theorem readReg_isSome {i : Nat} (s : State) (h : i < numRegs) : ∃ w, readReg i s = some w :=
  ⟨s.regs[i], by simp [readReg, h]⟩

/-- Reading a register depends on the register file alone. -/
theorem readReg_congr {i : Nat} {s t : State} (h : t.regs = s.regs) : readReg i t = readReg i s := by
  rw [readReg, readReg, h]

/-- Reading after a register write: the written word in that register, the old words in the others. -/
theorem readReg_writeReg (i j : Nat) (v : Word) (s : State) :
    readReg j (writeReg i v s) = if j = i ∧ i < numRegs then some v else readReg j s := by
  simp only [readReg, writeReg_regs, Vector.getElem?_setIfInBounds]
  by_cases h : j = i
  · subst h
    by_cases hj : j < numRegs
    · simp [hj]
    · simp [hj]
  · rw [if_neg (Ne.symm h), if_neg (fun hh => h hh.1)]

/-- MemRead answers the stored word exactly below MEM_SIZE. -/
theorem memRead_eq_some {a : Nat} {s : State} {w : Word} :
    memRead a s = some w ↔ a < s.cfg.memSize ∧ w = Memory.get s.mem a := by
  unfold memRead
  split <;> simp_all [eq_comm]

theorem memRead_eq_none {a : Nat} {s : State} : memRead a s = none ↔ s.cfg.memSize ≤ a := by
  unfold memRead
  split <;> simp <;> omega

/-- LOD's operand assembly is zero extension. -/
@[simp] theorem lodAddress_eq (addr8 : BitVec 8) : lodAddress addr8 = addr8.toNat := by
  have := addr8.isLt
  simp only [lodAddress, zext16, BitVec.toNat_setWidth]
  omega

/-- JMP's operand assembly is zero extension. -/
@[simp] theorem jmpTarget_eq (addr12 : BitVec 12) : jmpTarget addr12 = addr12.toNat := by
  have := addr12.isLt
  simp only [jmpTarget, zext16, BitVec.toNat_setWidth]
  omega

/-- ADD's operands are there exactly when both indices are in [0,16). -/
theorem addOperands_eq_none {rd rs : Nat} {s : State} :
    addOperands rd rs s = none ↔ numRegs ≤ rd ∨ numRegs ≤ rs := by
  rw [← readReg_eq_none (s := s), ← readReg_eq_none (s := s), addOperands]
  cases readReg rd s <;> cases readReg rs s <;> simp

theorem addOperands_eq_some {rd rs : Nat} {s : State} {a b : Word} :
    addOperands rd rs s = some (a, b) ↔ readReg rd s = some a ∧ readReg rs s = some b := by
  rw [addOperands]
  cases readReg rd s <;> cases readReg rs s <;> simp

/-- The ALU adds modulo 65536. -/
theorem aluAdd_toNat (a b : Word) : (aluAdd a b).toNat = (a.toNat + b.toNat) % 65536 := by
  simp [aluAdd]

/-- Host keyboard writes change only memory and the trace. -/
theorem kbdWrites_frame (vs : List Word) (s : State) :
    kbdWrites vs s = { s with mem := (kbdWrites vs s).mem, trace := s.trace ++ vs.map .kbdWrite } := by
  induction vs generalizing s with
  | nil => simp [kbdWrites]
  | cons v vs ih => rw [kbdWrites, ih]; simp [kbdWrite, emit, memWrite]

@[simp] theorem kbdWrites_cfg (vs : List Word) (s : State) : (kbdWrites vs s).cfg = s.cfg := by
  rw [kbdWrites_frame]

@[simp] theorem kbdWrites_regs (vs : List Word) (s : State) : (kbdWrites vs s).regs = s.regs := by
  rw [kbdWrites_frame]

@[simp] theorem kbdWrites_pc (vs : List Word) (s : State) : (kbdWrites vs s).pc = s.pc := by
  rw [kbdWrites_frame]

@[simp] theorem kbdWrites_pending (vs : List Word) (s : State) : (kbdWrites vs s).pending = s.pending := by
  rw [kbdWrites_frame]

@[simp] theorem kbdWrites_tick (vs : List Word) (s : State) : (kbdWrites vs s).tick = s.tick := by
  rw [kbdWrites_frame]

@[simp] theorem kbdWrites_status (vs : List Word) (s : State) : (kbdWrites vs s).status = s.status := by
  rw [kbdWrites_frame]

@[simp] theorem kbdWrites_record (vs : List Word) (s : State) : (kbdWrites vs s).record = s.record := by
  rw [kbdWrites_frame]

@[simp] theorem kbdWrites_disk (vs : List Word) (s : State) : (kbdWrites vs s).disk = s.disk := by
  rw [kbdWrites_frame]

@[simp] theorem kbdWrites_diskOut (vs : List Word) (s : State) : (kbdWrites vs s).diskOut = s.diskOut := by
  rw [kbdWrites_frame]

@[simp] theorem kbdWrites_fetchAddr (vs : List Word) (s : State) : (kbdWrites vs s).fetchAddr = s.fetchAddr := by
  rw [kbdWrites_frame]

@[simp] theorem kbdWrites_ir (vs : List Word) (s : State) : (kbdWrites vs s).ir = s.ir := by
  rw [kbdWrites_frame]

@[simp] theorem kbdWrites_inputs (vs : List Word) (s : State) : (kbdWrites vs s).inputs = s.inputs := by
  rw [kbdWrites_frame]

@[simp] theorem kbdWrites_draws (vs : List Word) (s : State) : (kbdWrites vs s).draws = s.draws := by
  rw [kbdWrites_frame]

/-- Host keyboard writes leave every other address alone. -/
theorem kbdWrites_get {vs : List Word} {s : State} {a : Nat} (h : Memory.wf s.mem = true)
    (ha : a ≠ s.cfg.kbdAddr) : Memory.get (kbdWrites vs s).mem a = Memory.get s.mem a := by
  induction vs generalizing s with
  | nil => rfl
  | cons v vs ih =>
    rw [kbdWrites, ih]
    · rw [kbdWrite_mem]
      split
      · rw [Memory.get_set _ _ _ h, if_neg ha]
      · rfl
    · rw [kbdWrite_mem]
      split
      · exact Memory.wf_set _ _ h
      · exact h
    · exact ha

/-- Host keyboard writes keep the canonical form and the bound on addresses. -/
theorem kbdWrites_wf {vs : List Word} {s : State} (h : Memory.wf s.mem = true)
    (hb : Memory.within s.cfg.memSize s.mem = true) :
    Memory.wf (kbdWrites vs s).mem = true ∧ Memory.within s.cfg.memSize (kbdWrites vs s).mem = true := by
  induction vs generalizing s with
  | nil => exact ⟨h, hb⟩
  | cons v vs ih =>
    rw [kbdWrites]
    refine ih (s := kbdWrite v s) ?_ ?_
    · rw [kbdWrite_mem]
      split
      · exact Memory.wf_set _ _ h
      · exact h
    · rw [kbdWrite_mem, kbdWrite_cfg]
      split
      · next hk => exact Memory.within_set _ hk hb
      · exact hb

end Sys2Proof.Machine
end

