-- ==== Sys2Proof/Laws/Cycle.lean ====
section
/-! SUPPORT. The parts of an iteration: what the interrupt service, the fetch, the timer and the end of an iteration
do, and which cases a step has. -/

namespace Sys2Proof.Machine

/-- The interrupt service changes only the pending flag, which it clears, and the trace. -/
theorem serviceInterrupt_eq (s : State) :
    serviceInterrupt s =
      { s with pending := false, trace := if s.pending then s.trace ++ [.irqNotify] else s.trace } := by
  obtain ⟨_, _, _, _, pending, _⟩ := s
  cases pending <;> rfl

@[simp] theorem serviceInterrupt_cfg (s : State) : (serviceInterrupt s).cfg = s.cfg := by
  rw [serviceInterrupt_eq]

@[simp] theorem serviceInterrupt_regs (s : State) : (serviceInterrupt s).regs = s.regs := by
  rw [serviceInterrupt_eq]

@[simp] theorem serviceInterrupt_pc (s : State) : (serviceInterrupt s).pc = s.pc := by
  rw [serviceInterrupt_eq]

@[simp] theorem serviceInterrupt_mem (s : State) : (serviceInterrupt s).mem = s.mem := by
  rw [serviceInterrupt_eq]

@[simp] theorem serviceInterrupt_tick (s : State) : (serviceInterrupt s).tick = s.tick := by
  rw [serviceInterrupt_eq]

@[simp] theorem serviceInterrupt_status (s : State) : (serviceInterrupt s).status = s.status := by
  rw [serviceInterrupt_eq]

@[simp] theorem serviceInterrupt_record (s : State) : (serviceInterrupt s).record = s.record := by
  rw [serviceInterrupt_eq]

@[simp] theorem serviceInterrupt_disk (s : State) : (serviceInterrupt s).disk = s.disk := by
  rw [serviceInterrupt_eq]

@[simp] theorem serviceInterrupt_diskOut (s : State) : (serviceInterrupt s).diskOut = s.diskOut := by
  rw [serviceInterrupt_eq]

@[simp] theorem serviceInterrupt_fetchAddr (s : State) : (serviceInterrupt s).fetchAddr = s.fetchAddr := by
  rw [serviceInterrupt_eq]

@[simp] theorem serviceInterrupt_ir (s : State) : (serviceInterrupt s).ir = s.ir := by
  rw [serviceInterrupt_eq]

@[simp] theorem serviceInterrupt_inputs (s : State) : (serviceInterrupt s).inputs = s.inputs := by
  rw [serviceInterrupt_eq]

@[simp] theorem serviceInterrupt_draws (s : State) : (serviceInterrupt s).draws = s.draws := by
  rw [serviceInterrupt_eq]

/-- The timer changes only the pending flag, which it never clears, the tick counter and the count of free values. -/
theorem timerTick_frame (fired : Option Bool) (s : State) :
    timerTick fired s = { s with
      pending := (timerTick fired s).pending
      tick := (timerTick fired s).tick
      draws := (timerTick fired s).draws } := by
  unfold timerTick
  split <;> split <;> rfl

@[simp] theorem timerTick_cfg (fired : Option Bool) (s : State) : (timerTick fired s).cfg = s.cfg := by
  rw [timerTick_frame]

@[simp] theorem timerTick_regs (fired : Option Bool) (s : State) : (timerTick fired s).regs = s.regs := by
  rw [timerTick_frame]

@[simp] theorem timerTick_pc (fired : Option Bool) (s : State) : (timerTick fired s).pc = s.pc := by
  rw [timerTick_frame]

@[simp] theorem timerTick_mem (fired : Option Bool) (s : State) : (timerTick fired s).mem = s.mem := by
  rw [timerTick_frame]

@[simp] theorem timerTick_status (fired : Option Bool) (s : State) : (timerTick fired s).status = s.status := by
  rw [timerTick_frame]

@[simp] theorem timerTick_record (fired : Option Bool) (s : State) : (timerTick fired s).record = s.record := by
  rw [timerTick_frame]

@[simp] theorem timerTick_disk (fired : Option Bool) (s : State) : (timerTick fired s).disk = s.disk := by
  rw [timerTick_frame]

@[simp] theorem timerTick_diskOut (fired : Option Bool) (s : State) : (timerTick fired s).diskOut = s.diskOut := by
  rw [timerTick_frame]

@[simp] theorem timerTick_trace (fired : Option Bool) (s : State) : (timerTick fired s).trace = s.trace := by
  rw [timerTick_frame]

@[simp] theorem timerTick_fetchAddr (fired : Option Bool) (s : State) : (timerTick fired s).fetchAddr = s.fetchAddr := by
  rw [timerTick_frame]

@[simp] theorem timerTick_ir (fired : Option Bool) (s : State) : (timerTick fired s).ir = s.ir := by
  rw [timerTick_frame]

@[simp] theorem timerTick_inputs (fired : Option Bool) (s : State) : (timerTick fired s).inputs = s.inputs := by
  rw [timerTick_frame]

/-- The end of an iteration that goes on: the timer, then Frame. -/
theorem finishIteration_running {fired : Option Bool} {s : State} (h : s.status = .running) :
    finishIteration fired s = emit .frame (timerTick fired s) := if_pos h

/-- The end of an iteration that stopped: nothing. -/
theorem finishIteration_stopped {fired : Option Bool} {s : State} (h : s.status ≠ .running) :
    finishIteration fired s = s := if_neg h

/-- The end of an iteration changes only the timer's state and the trace. -/
theorem finishIteration_frame (fired : Option Bool) (s : State) :
    finishIteration fired s = { s with
      pending := (finishIteration fired s).pending
      tick := (finishIteration fired s).tick
      draws := (finishIteration fired s).draws
      trace := (finishIteration fired s).trace } := by
  unfold finishIteration
  split
  · rw [emit, timerTick_frame]
  · rfl

@[simp] theorem finishIteration_cfg (fired : Option Bool) (s : State) : (finishIteration fired s).cfg = s.cfg := by
  rw [finishIteration_frame]

@[simp] theorem finishIteration_regs (fired : Option Bool) (s : State) : (finishIteration fired s).regs = s.regs := by
  rw [finishIteration_frame]

@[simp] theorem finishIteration_pc (fired : Option Bool) (s : State) : (finishIteration fired s).pc = s.pc := by
  rw [finishIteration_frame]

@[simp] theorem finishIteration_mem (fired : Option Bool) (s : State) : (finishIteration fired s).mem = s.mem := by
  rw [finishIteration_frame]

@[simp] theorem finishIteration_status (fired : Option Bool) (s : State) : (finishIteration fired s).status = s.status := by
  rw [finishIteration_frame]

@[simp] theorem finishIteration_record (fired : Option Bool) (s : State) : (finishIteration fired s).record = s.record := by
  rw [finishIteration_frame]

@[simp] theorem finishIteration_disk (fired : Option Bool) (s : State) : (finishIteration fired s).disk = s.disk := by
  rw [finishIteration_frame]

@[simp] theorem finishIteration_diskOut (fired : Option Bool) (s : State) : (finishIteration fired s).diskOut = s.diskOut := by
  rw [finishIteration_frame]

@[simp] theorem finishIteration_fetchAddr (fired : Option Bool) (s : State) : (finishIteration fired s).fetchAddr = s.fetchAddr := by
  rw [finishIteration_frame]

@[simp] theorem finishIteration_ir (fired : Option Bool) (s : State) : (finishIteration fired s).ir = s.ir := by
  rw [finishIteration_frame]

@[simp] theorem finishIteration_inputs (fired : Option Bool) (s : State) : (finishIteration fired s).inputs = s.inputs := by
  rw [finishIteration_frame]

/-- The fetch succeeds exactly below MEM_SIZE, and then latches the word and advances the pc. -/
theorem fetch_eq_some {s t : State} :
    fetch s = some t ↔ s.pc < s.cfg.memSize ∧
      t = { s with fetchAddr := s.pc, ir := Memory.get s.mem s.pc, pc := s.pc + 1 } := by
  unfold fetch memRead
  split
  · next h => split at h <;> simp_all
  · next h => split at h <;> simp_all [eq_comm]

theorem fetch_eq_none {s : State} : fetch s = none ↔ s.cfg.memSize ≤ s.pc := by
  rw [← memRead_eq_none]
  unfold fetch
  split <;> simp_all

/-- What a meaning can do, where it answers: a register written, the pc set, the run halted, or a fault taken.  No
meaning stops. -/
theorem exec_cases (i : Instr) (s : State) :
    (∃ r v, exec i s = .next (writeReg r v s)) ∨ (∃ t, exec i s = .next (setPc t s)) ∨
    exec i s = .next (halt .halted s) ∨ (∃ k a, exec i s = .next (raise k s.fetchAddr (some s.ir) a s)) := by
  cases i with
  | lod rd addr8 =>
    simp only [exec, execLod]
    split
    · exact .inr (.inr (.inr ⟨_, _, rfl⟩))
    · exact .inl ⟨_, _, rfl⟩
  | add rd rs =>
    simp only [exec, execAdd]
    split
    · exact .inr (.inr (.inr ⟨_, _, rfl⟩))
    · exact .inl ⟨_, _, rfl⟩
  | jmp addr12 => exact .inr (.inl ⟨_, rfl⟩)
  | hlt => exact .inr (.inr (.inl rfl))

/-- A meaning always answers a next state, and never changes memory, the disk, the timer's state, the configuration
or the model's own fields. -/
theorem exec_frame (i : Instr) (s : State) :
    ∃ t, exec i s = .next t ∧ t = { s with
      regs := t.regs, pc := t.pc, status := t.status, record := t.record, trace := t.trace } := by
  obtain ⟨r, v, h⟩ | ⟨n, h⟩ | h | ⟨k, a, h⟩ := exec_cases i s <;> exact ⟨_, h, rfl⟩

/-- A step is the next move made. -/
theorem step_eq (s : State) : step s = moveStep exec (nextMove s).1 (nextMove s).2 := by
  cases h : s.inputs <;> simp only [step, machineStep, nextMove, h, moveStep]

/-- The state that makes the next move differs from the state before in the list of moves alone. -/
theorem nextMove_state (s : State) : (nextMove s).2 = { s with inputs := (nextMove s).2.inputs } := by
  unfold nextMove
  split <;> rfl

/-- What the state an instruction executes in has changed since the iteration began. -/
theorem atExecute_frame (d : EngineDraws) (s : State) :
    atExecute d s = { s with
      pending := false
      pc := s.pc + 1
      fetchAddr := s.pc
      ir := Memory.get s.mem s.pc
      mem := (atExecute d s).mem
      trace := (if s.pending then s.trace ++ [.irqNotify] else s.trace) ++ d.kbd.map .kbdWrite } := by
  rw [atExecute, kbdWrites_frame, serviceInterrupt_eq]

@[simp] theorem atExecute_cfg (d : EngineDraws) (s : State) : (atExecute d s).cfg = s.cfg := by
  rw [atExecute_frame]

@[simp] theorem atExecute_regs (d : EngineDraws) (s : State) : (atExecute d s).regs = s.regs := by
  rw [atExecute_frame]

@[simp] theorem atExecute_pc (d : EngineDraws) (s : State) : (atExecute d s).pc = s.pc + 1 := by
  rw [atExecute_frame]

@[simp] theorem atExecute_pending (d : EngineDraws) (s : State) : (atExecute d s).pending = false := by
  rw [atExecute_frame]

@[simp] theorem atExecute_tick (d : EngineDraws) (s : State) : (atExecute d s).tick = s.tick := by
  rw [atExecute_frame]

@[simp] theorem atExecute_status (d : EngineDraws) (s : State) : (atExecute d s).status = s.status := by
  rw [atExecute_frame]

@[simp] theorem atExecute_record (d : EngineDraws) (s : State) : (atExecute d s).record = s.record := by
  rw [atExecute_frame]

@[simp] theorem atExecute_disk (d : EngineDraws) (s : State) : (atExecute d s).disk = s.disk := by
  rw [atExecute_frame]

@[simp] theorem atExecute_diskOut (d : EngineDraws) (s : State) : (atExecute d s).diskOut = s.diskOut := by
  rw [atExecute_frame]

@[simp] theorem atExecute_trace (d : EngineDraws) (s : State) : (atExecute d s).trace =
      (if s.pending then s.trace ++ [.irqNotify] else s.trace) ++ d.kbd.map .kbdWrite := by
  rw [atExecute_frame]

@[simp] theorem atExecute_fetchAddr (d : EngineDraws) (s : State) : (atExecute d s).fetchAddr = s.pc := by
  rw [atExecute_frame]

@[simp] theorem atExecute_ir (d : EngineDraws) (s : State) : (atExecute d s).ir = Memory.get s.mem s.pc := by
  rw [atExecute_frame]

@[simp] theorem atExecute_inputs (d : EngineDraws) (s : State) : (atExecute d s).inputs = s.inputs := by
  rw [atExecute_frame]

@[simp] theorem atExecute_draws (d : EngineDraws) (s : State) : (atExecute d s).draws = s.draws := by
  rw [atExecute_frame]

/-- The state that makes a given next move differs from the state before in the list of moves alone. -/
theorem nextMove_eq {s s0 : State} {m : Move} (h : nextMove s = (m, s0)) :
    s0 = { s with inputs := s0.inputs } := by
  have hs := nextMove_state s
  rw [h] at hs
  exact hs

/-- A step whose next move is known is that move. -/
theorem step_of_nextMove {s s0 : State} {m : Move} (h : nextMove s = (m, s0)) :
    step s = moveStep exec m s0 := by
  rw [step_eq, h]

/-- A step that runs an iteration services the interrupt and goes on to the fetch. -/
theorem step_of_runsIteration {s s0 : State} {d : EngineDraws} (h : runsIteration s d s0) :
    step s = fetchAndExecute exec d (serviceInterrupt s0) := by
  obtain ⟨h1, h2, h3⟩ := h
  have hs : s0.status = .running := by rw [nextMove_eq h1]; exact h2
  rw [step_of_nextMove h1, moveStep, iteration, if_pos hs, h3]

/-- A step that runs an iteration whose fetch succeeds decodes and executes in `atExecute`. -/
theorem step_of_fetched {s s0 : State} {d : EngineDraws} (h : runsIteration s d s0)
    (hp : s.pc < s.cfg.memSize) : step s = executeFetched exec d.fired (atExecute d s0) := by
  have hf : fetch (serviceInterrupt s0) = some { serviceInterrupt s0 with
      fetchAddr := s0.pc, ir := Memory.get s0.mem s0.pc, pc := s0.pc + 1 } := by
    rw [fetch_eq_some, serviceInterrupt_eq, nextMove_eq h.1]
    exact ⟨hp, rfl⟩
  rw [step_of_runsIteration h, fetchAndExecute, hf]
  rfl

/-- The cases of an iteration that answers a next state: a quit, a fetch out of range, an unknown opcode, or a
decoded instruction executed. -/
theorem iteration_cases {d : EngineDraws} {s t : State} (h : iteration exec d s = .next t) :
    s.status = .running ∧
    ((d.poll = .quit ∧ t = halt .quit s) ∨
     (d.poll = .clear ∧ s.cfg.memSize ≤ s.pc ∧
        t = raise .addressing s.pc none (some s.pc) (serviceInterrupt s)) ∨
     (d.poll = .clear ∧ s.pc < s.cfg.memSize ∧
        ((∃ op, decode (Memory.get s.mem s.pc) = .illegal op ∧
            t = raise .decode s.pc (some (Memory.get s.mem s.pc)) none (atExecute d s)) ∨
         ∃ i v, decode (Memory.get s.mem s.pc) = .instr i ∧ exec i (atExecute d s) = .next v ∧
            t = finishIteration d.fired v))) := by
  unfold iteration at h
  split at h
  · next hrun =>
    refine ⟨hrun, ?_⟩
    split at h
    · exact absurd h (by simp)
    · next hp => exact .inl ⟨hp, by simpa using h.symm⟩
    · next hp =>
      right
      have hs := serviceInterrupt_eq s
      have hpc : (serviceInterrupt s).pc = s.pc := by rw [hs]
      have hmem : (serviceInterrupt s).mem = s.mem := by rw [hs]
      have hcfg : (serviceInterrupt s).cfg = s.cfg := by rw [hs]
      unfold fetchAndExecute at h
      split at h
      · next hf =>
        rw [fetch_eq_none, hpc, hcfg] at hf
        rw [hpc] at h
        exact .inl ⟨hp, hf, by simpa using h.symm⟩
      · next u hf =>
        rw [fetch_eq_some, hpc, hcfg, hmem] at hf
        refine .inr ⟨hp, hf.1, ?_⟩
        have hu : kbdWrites d.kbd u = atExecute d s := by rw [hf.2, atExecute, serviceInterrupt_eq]
        unfold executeFetched at h
        rw [hu, atExecute_ir] at h
        split at h
        · next op hd => exact .inl ⟨op, hd, by simpa using h.symm⟩
        · next i hd =>
          right
          obtain ⟨v, hv, -⟩ := exec_frame i (atExecute d s)
          rw [hv] at h
          exact ⟨i, v, hd, hv, by simpa using h.symm⟩
  · exact absurd h (by simp)

end Sys2Proof.Machine
end

