-- ==== Sys2Proof/Laws/Decode.lean ====
section
/-! SUPPORT. The bit fields as numbers, and the fields of the encoder's words. -/

namespace Sys2Proof

theorem opField_toNat (w : Word) : (opField w).toNat = w.toNat / 4096 := by
  have := w.isLt
  simp only [opField, BitVec.extractLsb'_toNat, Nat.shiftRight_eq_div_pow]
  omega

theorem rdField_toNat (w : Word) : (rdField w).toNat = w.toNat / 256 % 16 := by
  simp only [rdField, BitVec.extractLsb'_toNat, Nat.shiftRight_eq_div_pow]

theorem rsField_toNat (w : Word) : (rsField w).toNat = w.toNat / 16 % 16 := by
  simp only [rsField, BitVec.extractLsb'_toNat, Nat.shiftRight_eq_div_pow]

theorem addr8Field_toNat (w : Word) : (addr8Field w).toNat = w.toNat % 256 := by
  simp only [addr8Field, BitVec.extractLsb'_toNat, Nat.shiftRight_eq_div_pow]
  omega

theorem addr12Field_toNat (w : Word) : (addr12Field w).toNat = w.toNat % 4096 := by
  simp only [addr12Field, BitVec.extractLsb'_toNat, Nat.shiftRight_eq_div_pow]
  omega

/-- The number of a word put together from an upper and a lower field. -/
theorem append_toNat {m n : Nat} (a : BitVec m) (b : BitVec n) :
    (a ++ b).toNat = a.toNat * 2 ^ n + b.toNat := by
  rw [BitVec.toNat_append, Nat.shiftLeft_eq, ← Nat.shiftLeft_eq, Nat.shiftLeft_add_eq_or_of_lt b.isLt]

end Sys2Proof
end

