-- ==== Sys2Proof/Laws/Disk.lean ====
section
/-! SUPPORT. When the disk controller's operations succeed, and how long they leave the store. -/

namespace Sys2Proof.Machine

/-- A sector is read exactly where it lies in the store. -/
theorem readSector_eq_none {d : Store} {sector : Word} :
    readSector d sector = none ↔ d.length < sectorStart sector + sectorSize := by
  have hs : sectorSize = 1024 := rfl
  unfold readSector
  split
  · next h => rw [List.length_take, List.length_drop] at h; simp; omega
  · next h => rw [List.length_take, List.length_drop] at h; simp; omega

/-- The words of a sector that was read are the store's. -/
theorem readSector_words {d : Store} {sector : Word} {b : Buffer} (h : readSector d sector = some b) :
    b.1 = (d.drop (sectorStart sector)).take sectorSize := by
  unfold readSector at h
  split at h
  · cases h; rfl
  · cases h

/-- A WRITE that returns OK grows the store to cover the sector, and no further. -/
theorem writeSector_length (d : Store) (sector : Word) (b : Buffer) :
    (writeSector d sector b).length = max d.length (sectorStart sector + sectorSize) := by
  simp only [writeSector, List.length_append, List.length_take, List.length_replicate, List.length_drop, b.2]
  omega

/-- A failed WRITE never shortens the store, and grows it at most to the sector's end. -/
theorem failedWriteStore_length (d : Store) (sector : Word) (landed : List Word) :
    d.length ≤ (failedWriteStore d sector landed).length ∧
      (failedWriteStore d sector landed).length ≤ max d.length (sectorStart sector + sectorSize) := by
  simp only [failedWriteStore, List.length_append, List.length_take, List.length_drop]
  omega

end Sys2Proof.Machine
end

