-- ==== Sys2Proof/Laws/PerInstr.lean ====
section
/-! SUPPORT. One law per instruction of its own syntax: the opcode row of spec/30_encoding.md rule R104. -/

namespace Sys2Proof.Laws.OpcodeRow

/-- The opcode of each instruction's row (R104). -/
def opcode : Instr → Nat
  | .lod _ _ => 0x1
  | .add _ _ => 0x2
  | .jmp _ => 0x4
  | .hlt => 0xF

/-- The encoder writes the row's opcode into bits 15:12, whatever the operands. -/
def Statement (i : Instr) : Prop := (encode i).toNat / 4096 = opcode i

theorem lod (rd : BitVec 4) (addr8 : BitVec 8) : Statement (.lod rd addr8) := by
  have := addr8.isLt; have := rd.isLt
  simp only [Statement, encode, opcode, append_toNat]
  simp
  omega

theorem add (rd rs : Nat) : Statement (.add rd rs) := by
  simp only [Statement, encode, opcode, append_toNat, BitVec.toNat_ofNat]
  omega

theorem jmp (addr12 : BitVec 12) : Statement (.jmp addr12) := by
  have := addr12.isLt
  simp only [Statement, encode, opcode, append_toNat]
  simp
  omega

theorem hlt : Statement .hlt := rfl

end Sys2Proof.Laws.OpcodeRow
end

