-- ==== Sys2Proof/Tests/Slice0.lean ====
section
/-! SUPPORT. Tests of the model against the vectors of spec/95_test_vectors.md, and a witness for the hypotheses of
every statement that has some, clause by clause. -/

namespace Sys2Proof.Tests

open Sys2Proof Sys2Proof.Machine

/-! ## Helpers -/

/-- The next state of an answer. -/
def nextOf : Answer → Option State
  | .next s => some s
  | .fault _ => none
  | .refused _ => none

/-- The configuration TC16 of 95 section 0. -/
def tc16 : Config := { Config.tc with memSize := 16, kbdAddr := 0x0F, videoBase := 0, videoRows := 0 }

/-- The configuration TC128 of 95 section 0. -/
def tc128 : Config :=
  { Config.tc with memSize := 128, kbdAddr := 0x7E, videoBase := 0x70, videoRows := 1, videoCols := 8 }

/-- The reset machine with a configuration, a pc and listed memory words. -/
def machineAt (c : Config) (pc : Nat) (mem : Memory) : State := { State.reset with cfg := c, pc := pc, mem := mem }

/-- The same machine with other registers. -/
def withReg (i : Nat) (v : Word) (s : State) : State := writeReg i v s

/-- The same machine with moves to come. -/
def withMoves (ms : List Move) (s : State) : State := { s with inputs := ms }

/-- A 1024-word buffer of one word. -/
def bufferOf (w : Word) : Buffer := ⟨List.replicate sectorSize w, List.length_replicate⟩

/-- The draws of a disk call that finds the store available and takes a WRITE whole. -/
def goodDraws : DiskDraws := ⟨false, false, false, bufferOf 0, []⟩

/-- A disk call with such draws. -/
def callOf (cmd sector w : Word) : DiskCall := ⟨cmd, sector, bufferOf w, goodDraws⟩

/-- A disk call whose store stalls. -/
def stallingCall (cmd : Word) : DiskCall := { callOf cmd 0 0 with draws := { goodDraws with stalls := true } }

/-- An iteration's draws with a poll and keyboard words. -/
def drawsOf (p : Poll) (kbd : List Word) : EngineDraws := ⟨p, kbd, none⟩

/-- A launch with a program file, REG_INIT = 0 and I/O available. -/
def launchOf (file : List Byte) : Launch := ⟨Vector.replicate numRegs 0, file, true⟩

/-- A store of one sector of 0xABCD (95 W9). -/
def oneSector : Store := List.replicate sectorSize 0xABCD

/-! ## Decoding: words written out from the formats of 30_encoding.md R102 -/

theorem test_decode_lod : decode 0b0001_1111_11111111 = .instr (.lod 15 0xFF) := by decide
theorem test_decode_add : decode 0b0010_1111_0101_1010 = .instr (.add 15 5) := by decide
theorem test_decode_jmp : decode 0b0100_0001_0010_0011 = .instr (.jmp 0x123) := by decide
theorem test_decode_hlt : decode 0b1111_1010_1011_1100 = .instr .hlt := by decide
theorem test_decode_illegal : decode 0b0011_0000_0000_0000 = .illegal 0x3 := by decide
theorem test_encode_all :
    encode (.lod 15 0xFF) = 0x1FFF ∧ encode (.add 15 5) = 0x2F50 ∧ encode (.jmp 0x123) = 0x4123 ∧
      encode .hlt = 0xF000 := by decide
theorem test_decodeTableWord :
    decodeTableWord 16 0x1000 = some (.lod 0 0) ∧ decodeTableWord 16 0x2001 = some (.add 0 0) ∧
      decodeTableWord 16 0x4000 = some (.jmp 0) ∧ decodeTableWord 16 0xFFFF = some .hlt ∧
      decodeTableWord 16 0x5000 = none := by decide

/-- Each check of `WellFormed` refuses an ill-formed term. -/
theorem test_wellFormed :
    WellFormed (.add 16 0) = false ∧ WellFormed (.add 0 16) = false ∧ WellFormed (.add 15 15) = true := by decide

/-! ## Each instruction, as the first one after reset -/

/-- 95 vector L1. -/
theorem test_lod_loads :
    (nextOf (step ((machineAt Config.tc 0 [(0x0A, 7)]).withFetchWord 16 0x100A))).map
      (fun t => (readReg 0 t, t.pc, t.tick, t.trace)) = some (some 7, 1, 1, [.frame]) := by decide

/-- 95 vector L5. -/
theorem test_lod_out_of_range :
    (nextOf (step (machineAt tc128 5 [(5, 0x1080)]))).map (fun t => (t.pc, t.status, t.record, t.tick)) =
      some (6, .addressingFault, some ⟨.addressing, 5, some 0x1080, some 0x80⟩, 0) := by decide

/-- 95 vector A2. -/
theorem test_add_wraps :
    (nextOf (step (withReg 3 0xFFFF (withReg 4 1 (State.reset.withFetchWord 16 0x2340))))).map
      (fun t => (readReg 3 t, readReg 4 t, t.pc)) = some (some 0, some 1, 1) := by decide

/-- 95 vector A9: rd = rs, with ignored bits 0001. -/
theorem test_add_doubles :
    (nextOf (step (withReg 0 7 (State.reset.withFetchWord 16 0x2001)))).map (readReg 0) = some (some 14) := by decide

/-- 95 vector J1. -/
theorem test_jmp_sets_pc : (nextOf (step (machineAt Config.tc 0x10 [(0x10, 0x4123)]))).map (·.pc) = some 0x123 := by
  decide

/-- 95 vector J4: the self-loop's timer advances. -/
theorem test_jmp_self_loop :
    (nextOf (step (machineAt Config.tc 7 [(7, 0x4007)]))).map (fun t => (t.pc, t.tick, t.trace)) =
      some (7, 1, [.frame]) := by decide

/-- 95 vector H1. -/
theorem test_hlt_halts :
    (nextOf (step { machineAt Config.tc 2 [(2, 0xF000)] with tick := 2 })).map
      (fun t => (t.status.code, t.pc, t.tick, t.trace)) = some (1, 3, 2, [.stop .halted none]) := by decide

/-- 95 vector T3: a pending interrupt is serviced before the HLT. -/
theorem test_hlt_after_interrupt :
    (nextOf (step { machineAt Config.tc 2 [(2, 0xF000)] with pending := true })).map
      (fun t => (t.pending, t.trace)) = some (false, [.irqNotify, .stop .halted none]) := by decide

/-! ## The iteration, the timer and the host -/

/-- 95 vector X1: zeroed memory raises DecodeFault. -/
theorem test_zero_memory :
    (nextOf (step State.reset)).map (fun t => (t.status.code, t.record, t.pc)) =
      some (4, some ⟨.decode, 0, some 0, none⟩, 1) := by decide

/-- 95 vectors F2 and T5. -/
theorem test_fetch_out_of_range :
    (nextOf (step { machineAt tc16 16 [] with pending := true })).map (fun t => (t.pc, t.record, t.trace)) =
      some (16, some ⟨.addressing, 16, none, some 16⟩,
        [.irqNotify, .stop .addressingFault (some ⟨.addressing, 16, none, some 16⟩)]) := by decide

/-- 95 vector F1, its first iteration: the pc does not wrap. -/
theorem test_pc_does_not_wrap :
    (nextOf (step (machineAt Config.tc 0xFFFF [(0xFFFF, 0x2000)]))).map (·.pc) = some 0x10000 := by decide

/-- 95 vector T1. -/
theorem test_timer_fires :
    (nextOf (step { machineAt { Config.tc with timer := .ticks 3 } 0 [(0, 0x2000)] with tick := 2 })).map
      (fun t => (t.tick, t.pending)) = some (0, true) := by decide

/-- 95 vector T4. -/
theorem test_quit :
    (nextOf (step (withMoves [.engine (drawsOf .quit [])] { State.reset with pending := true }))).map
      (fun t => (t.status, t.pending, t.trace)) = some (.quit, true, [.stop .quit none]) := by decide

/-- 95 vector KB3, both writes falling between the fetch and the LOD read (20_memory.md R70). -/
theorem test_keyboard_last_write :
    (nextOf (step (withMoves [.engine (drawsOf .clear [0x41, 0x42])]
      (machineAt Config.tc 0 [(0, 0x10F0)])))).map (readReg 0) = some (some 0x42) := by decide

/-- 95 section 2.2. -/
theorem test_regions :
    region { Config.tc with romSize := 0x100 } 0xC4 = .video ∧ region { Config.tc with romSize := 0x100 } 0xF0 = .keyboard ∧
      region { Config.tc with romSize := 0x100 } 0xFF = .boot ∧ region Config.tc 0xD0 = .ram ∧
      videoAddr Config.tc 1 3 = 0xCB := by decide

set_option maxRecDepth 20000 in
/-- 95 vector K2, by the buffer's first and last word. -/
theorem test_disk_read : (diskHandle (callOf 1 0 0) oneSector).1.result = .ok ∧
    (diskHandle (callOf 1 0 0) oneSector).1.bufOut.1[0]? = some 0xABCD ∧
    (diskHandle (callOf 1 0 0) oneSector).1.bufOut.1[1023]? = some 0xABCD := by decide

set_option maxRecDepth 20000 in
/-- 95 vectors K3 and K12: past the end, and unavailable. -/
theorem test_disk_read_faults : (diskHandle (callOf 1 1 0) oneSector).1.result = .fault .shortRead ∧
    (diskHandle { callOf 1 0 0 with draws := { goodDraws with unavailable := true } } oneSector).1.result.code = 2 := by
  decide

set_option maxRecDepth 20000 in
/-- A WRITE that grows the store (95 vectors K9, K7 in small): the gap reads 0. -/
theorem test_disk_write :
    (diskHandle (callOf 2 0 0x1111) []).2[1023]? = some 0x1111 ∧ (diskHandle (callOf 2 1 0x1111) [7]).2[0]? = some 7 ∧
      (diskHandle (callOf 2 1 0x1111) [7]).2[1]? = some 0 ∧
      (diskHandle (callOf 2 1 0x1111) [7]).2[1024]? = some 0x1111 := by decide

/-- 95 program P7: the boot load, with the program image winning where the two overlap. -/
theorem test_boot_load :
    (resetState { Config.tc with romSize := 4 } [0x1203] (some [0x1103, 0xF000, 0, 0xBEEF, 5])
      (Vector.replicate numRegs 0) true [] 0).mem = [(0, 0x1203), (1, 0xF000), (3, 0xBEEF)] := by decide

/-- The two byte orders of an image file (R194, R252). -/
theorem test_image_bytes :
    imageOfFile .little [0x0A, 0x10] = some [0x100A] ∧ imageOfFile .big [0x10, 0x0A] = some [0x100A] ∧
      imageOfFile .little [1, 2, 3] = none := by decide

/-! ## Witnesses: for each statement with hypotheses, a state and operands that meet them -/

theorem witness_DecodeOfEncodeIsTheInstruction :
    WellFormed (.lod 15 0xFF) = true ∧ WellFormed (.add 15 15) = true ∧ WellFormed (.jmp 0xFFF) = true ∧
      WellFormed .hlt = true := by decide
theorem witness_DecodeReadsTheFormatFields :
    (0x1FFF : Word).toNat / 4096 = 0x1 ∧ (0x2000 : Word).toNat / 4096 = 0x2 ∧ (0x4FFF : Word).toNat / 4096 = 0x4 ∧
      (0xFFFF : Word).toNat / 4096 = 0xF ∧ (0xEFFF : Word).toNat / 4096 ∉ [0x1, 0x2, 0x4, 0xF] := by decide
theorem witness_IgnoredBitsTakeNoPart :
    (0x200F : Word) &&& 0xF000 = 0x2000 ∧ (0xFFFF : Word) &&& 0xF000 = 0xF000 := by decide
theorem witness_EncodeOfDecodeClearsTheIgnoredBits :
    decode 0x1FFF = .instr (.lod 15 0xFF) ∧ decode 0x2FFF = .instr (.add 15 15) ∧
      decode 0x4FFF = .instr (.jmp 0xFFF) ∧ decode 0xFFFF = .instr .hlt := by decide
theorem witness_LodLoadsTheAddressedWord : (0xFF : BitVec 8).toNat < State.reset.cfg.memSize := by decide
theorem witness_LodOutOfRangeTakesAddressingFault :
    (machineAt tc128 0 []).cfg.memSize ≤ (0x80 : BitVec 8).toNat := by decide
theorem witness_AddStoresTheSumModulo65536 : (15 : Nat) < 16 ∧ (0 : Nat) < 16 := by decide
theorem witness_AddIndexOutOfRangeTakesInvalidOperandFault :
    (16 ≤ 16 ∨ 16 ≤ 0) ∧ (16 ≤ 0 ∨ 16 ≤ 16) ∧ decode 0x2F00 = .instr (.add 15 0) := by decide
theorem witness_LodAndAddFrame :
    (∃ t, exec (.lod 15 0xFF) State.reset = .next t) ∧ (∃ t, exec (.add 15 0) State.reset = .next t) :=
  ⟨⟨_, rfl⟩, ⟨_, rfl⟩⟩

/-- A JMP, after which the run goes on, and a HLT, after which it does not. -/
theorem witness_StepRunsTheDecodedInstruction :
    (runsIteration (State.reset.withFetchWord 16 0x4123) silentDraws (State.reset.withFetchWord 16 0x4123) ∧
      (State.reset.withFetchWord 16 0x4123).pc < (State.reset.withFetchWord 16 0x4123).cfg.memSize ∧
      decode (Memory.get (State.reset.withFetchWord 16 0x4123).mem 0) = .instr (.jmp 0x123)) ∧
    decode (Memory.get (State.reset.withFetchWord 16 0xF000).mem 0) = .instr .hlt :=
  ⟨⟨⟨rfl, rfl, rfl⟩, by decide, by decide⟩, by decide⟩
theorem witness_LodStepFrame :
    runsIteration (State.reset.withFetchWord 16 0x1FFF) silentDraws (State.reset.withFetchWord 16 0x1FFF) ∧
      silentDraws.kbd = [] ∧ (State.reset.withFetchWord 16 0x1FFF).pc < Config.tc.memSize ∧
      decode (Memory.get (State.reset.withFetchWord 16 0x1FFF).mem 0) = .instr (.lod 15 0xFF) ∧
      (0xFF : BitVec 8).toNat < Config.tc.memSize :=
  ⟨⟨rfl, rfl, rfl⟩, rfl, by decide, by decide, by decide⟩
theorem witness_AddStepFrame :
    (runsIteration (State.reset.withFetchWord 16 0x2F0F) silentDraws (State.reset.withFetchWord 16 0x2F0F) ∧
      silentDraws.kbd = [] ∧ (State.reset.withFetchWord 16 0x2F0F).pc < Config.tc.memSize ∧
      decode (Memory.get (State.reset.withFetchWord 16 0x2F0F).mem 0) = .instr (.add 15 0)) ∧
    ∃ t, exec (.add 15 0) State.reset = .next t :=
  ⟨⟨⟨rfl, rfl, rfl⟩, rfl, by decide, by decide⟩, _, rfl⟩
theorem witness_FetchOutOfRangeTakesAddressingFault :
    runsIteration (machineAt tc16 16 []) silentDraws (machineAt tc16 16 []) ∧
      (machineAt tc16 16 []).cfg.memSize ≤ (machineAt tc16 16 []).pc := ⟨⟨rfl, rfl, rfl⟩, by decide⟩
theorem witness_UnknownOpcodeTakesDecodeFault :
    runsIteration State.reset silentDraws State.reset ∧ silentDraws.kbd = [] ∧
      State.reset.pc < State.reset.cfg.memSize ∧ decode (Memory.get State.reset.mem 0) = .illegal 0 :=
  ⟨⟨rfl, rfl, rfl⟩, rfl, by decide, by decide⟩
theorem witness_QuitPreemptsTheIteration :
    nextMove (withMoves [.engine (drawsOf .quit [])] State.reset) = (.engine (drawsOf .quit []), State.reset) ∧
      State.reset.status = .running ∧ (drawsOf .quit []).poll = .quit := ⟨rfl, rfl, rfl⟩
theorem witness_PendingInterruptIsServicedFirst :
    runsIteration { State.reset with pending := true } silentDraws { State.reset with pending := true } :=
  ⟨rfl, rfl, rfl⟩

/-- One iteration that ends in a fault, one that ends by HLT, and one that goes on: below the threshold, at it, and
under WallClock. -/
theorem witness_StoppedIterationSkipsTimerAndFrame :
    (∃ t, step State.reset = .next t ∧ t.status.isFault = true) ∧
    (∃ t, step (State.reset.withFetchWord 16 0xF000) = .next t ∧ t.status = .halted) ∧
    (∃ t, step (State.reset.withFetchWord 16 0x4000) = .next t ∧ t.status = .running ∧ t.tick = 1) ∧
    (∃ t, step ({ State.reset with tick := 7999 }.withFetchWord 16 0x4000) = .next t ∧ t.tick = 0 ∧
      t.pending = true) ∧
    ∃ t, step (withMoves [.engine { silentDraws with fired := some true }]
      (machineAt { Config.tc with timer := .wallClock } 0 [(0, 0x4000)])) = .next t ∧ t.status = .running ∧
      t.pending = true :=
  ⟨⟨_, rfl, rfl⟩, ⟨_, rfl, rfl⟩, ⟨_, rfl, rfl, rfl⟩, ⟨_, rfl, rfl, rfl⟩, ⟨_, rfl, rfl, rfl⟩⟩
theorem witness_FaultsArePrecise :
    runsIteration State.reset silentDraws State.reset ∧ (∃ t, step State.reset = .next t ∧ t.status.isFault = true) ∧
    runsIteration (machineAt tc16 16 []) silentDraws (machineAt tc16 16 []) ∧
      ∃ t, step (machineAt tc16 16 []) = .next t ∧ t.status.isFault = true :=
  ⟨⟨rfl, rfl, rfl⟩, ⟨_, rfl, rfl⟩, ⟨rfl, rfl, rfl⟩, ⟨_, rfl, rfl⟩⟩
theorem witness_StoppedMachineRunsNoIteration :
    nextMove { State.reset with status := .halted } = (.engine silentDraws, { State.reset with status := .halted }) ∧
      Status.halted ≠ .running := ⟨rfl, by decide⟩
theorem witness_OnlyResetLeavesAStoppedStatus :
    ∃ t, step (withMoves [.kbdWrite 7] { State.reset with status := .halted }) = .next t ∧
      ∀ l, (nextMove (withMoves [.kbdWrite 7] { State.reset with status := .halted })).1 ≠ .reset l :=
  ⟨_, rfl, fun _ h => by cases h⟩
theorem witness_HangsAreStops :
    nextMove (withMoves [.engine (drawsOf .never [])] State.reset) = (.engine (drawsOf .never []), State.reset) ∧
    State.reset.status = .running ∧ (drawsOf .never []).poll = .never ∧
    (∀ cmd, nextMove (withMoves [.disk (stallingCall cmd)] State.reset) = (.disk (stallingCall cmd), State.reset)) ∧
    (∀ cmd, (stallingCall cmd).draws.stalls = true) ∧ (stallingCall 2).cmd.toNat ≤ 2 ∧
    2 < (stallingCall 3).cmd.toNat :=
  ⟨rfl, rfl, rfl, fun _ => rfl, fun _ => rfl, by decide, by decide⟩

/-- T = 1, where every tick fires, and T = 8000. -/
theorem witness_TicksTimerCountsToTheThreshold :
    State.reset.cfg.timer = .ticks 8000 ∧ 1 ≤ 8000 ∧ State.reset.tick + 1 < 8000 ∧
      (machineAt { Config.tc with timer := .ticks 1 } 0 []).cfg.timer = .ticks 1 ∧ 1 ≤ State.reset.tick + 1 := by
  decide
theorem witness_TimerFiresOncePerThreshold :
    State.reset.cfg.timer = .ticks 8000 ∧ 1 ≤ 8000 ∧ State.reset.tick = 0 := by decide

/-- A listed draw that fires, one that does not, and none listed. -/
theorem witness_WallClockTimerFollowsTheDraw :
    (machineAt { Config.tc with timer := .wallClock } 0 []).cfg.timer = .wallClock ∧
      (some true : Option Bool) = some true ∧ (some false : Option Bool) = some false := by decide

theorem witness_reset_inv : Inv State.reset := ⟨by decide, by decide, rfl, rfl, by decide, rfl⟩
theorem witness_StepKeepsTheInvariant : Inv State.reset ∧ ∃ t, step State.reset = .next t :=
  ⟨witness_reset_inv, _, rfl⟩
theorem witness_EveryLaunchMeetsTheInvariant : launchImage Config.tc [0x0A, 0x10] = .ok [0x100A] := by rfl

/-- A keyboard write, a silent iteration and a disk call. -/
theorem witness_OnlyTheKeyboardCellChanges :
    Memory.wf State.reset.mem = true ∧ (∃ t, step (withMoves [.kbdWrite 7] State.reset) = .next t) ∧
      (∃ t, step (withMoves [.engine silentDraws] State.reset) = .next t) ∧
      (∃ t, step (withMoves [.disk (callOf 0 0 0)] State.reset) = .next t) ∧ (0xEF : Nat) ≠ State.reset.cfg.kbdAddr :=
  ⟨rfl, ⟨_, rfl⟩, ⟨_, rfl⟩, ⟨_, rfl⟩, by decide⟩
theorem witness_RegistersChangeOnlyByInstructions :
    (∃ t, step ((machineAt Config.tc 0 [(0xFF, 7)]).withFetchWord 16 0x1FFF) = .next t ∧
      readReg 15 t ≠ readReg 15 State.reset) ∧
    ∃ t, step (withReg 15 7 (State.reset.withFetchWord 16 0x2FF0)) = .next t ∧
      readReg 15 t ≠ readReg 15 (withReg 15 7 State.reset) :=
  ⟨⟨_, rfl, by decide⟩, ⟨_, rfl, by decide⟩⟩

/-- A next state for a reset, a keyboard write, a disk call, and each kind of iteration. -/
theorem witness_WhoWritesThePc :
    (∃ t, step (withMoves [.reset (launchOf [])] State.reset) = .next t) ∧
    (∃ t, step (withMoves [.kbdWrite 7] State.reset) = .next t) ∧
    (∃ t, step (withMoves [.disk (callOf 0 0 0)] State.reset) = .next t) ∧
    (∃ t, step (State.reset.withFetchWord 16 0x4FFF) = .next t) ∧
    (∃ t, step (State.reset.withFetchWord 16 0x2000) = .next t) ∧ ∃ t, step (machineAt tc16 16 []) = .next t :=
  ⟨⟨_, rfl⟩, ⟨_, rfl⟩, ⟨_, rfl⟩, ⟨_, rfl⟩, ⟨_, rfl⟩, ⟨_, rfl⟩⟩
theorem witness_ConfigurationIsFixed : ∃ t, step State.reset = .next t := ⟨_, rfl⟩

theorem witness_MemoriesThatReadAlikeAreEqual :
    Memory.wf [(3, 7)] = true ∧ Memory.wf (Memory.set [] 3 7) = true ∧
      ∀ a, Memory.get [(3, 7)] a = Memory.get (Memory.set [] 3 7) a := ⟨by decide, by decide, fun _ => rfl⟩
theorem witness_KeyboardWriteChangesOnlyItsCell :
    nextMove (withMoves [.kbdWrite 7] State.reset) = (.kbdWrite 7, State.reset) ∧ Memory.wf State.reset.mem = true ∧
      State.reset.cfg.kbdAddr < State.reset.cfg.memSize := ⟨rfl, rfl, by decide⟩
theorem witness_LastKeyboardWriteWins :
    Memory.wf State.reset.mem = true ∧ State.reset.cfg.kbdAddr < State.reset.cfg.memSize ∧
      (0xF0 : BitVec 8).toNat = State.reset.cfg.kbdAddr := by decide
theorem witness_RegionsFixTheHostsRights :
    configLegal Config.tc = true ∧ region Config.tc 0xC0 = .video ∧ region Config.tc 0xCF = .video := by decide
theorem witness_VideoCellsAreDistinct :
    7 < Config.tc.videoCols ∧ videoAddr Config.tc 1 7 = videoAddr Config.tc 1 7 := by decide

theorem witness_VideoReadReturnsTheStoredWord :
    configLegal State.reset.cfg = true ∧ 1 < State.reset.cfg.videoRows ∧ 7 < State.reset.cfg.videoCols := by decide

theorem witness_DiskResetNeverAltersTheStore : (callOf 0 77 0).cmd = 0 := rfl
theorem witness_DiskResetAnswersByAvailability :
    (callOf 0 77 0).cmd = 0 ∧ (callOf 0 77 0).draws.unavailable = false ∧
      { goodDraws with unavailable := true }.unavailable = true := ⟨rfl, rfl, rfl⟩
theorem witness_DiskCommandsAreDecodedByCode :
    (callOf 0 0 0).cmd.toNat = 0 ∧ (callOf 1 0 0).cmd.toNat = 1 ∧ (callOf 2 0 0).cmd.toNat = 2 ∧
      3 ≤ (callOf 3 0 0).cmd.toNat ∧ 3 ≤ (callOf 0xFFFF 0 0).cmd.toNat ∧
      nextMove (withMoves [.disk (callOf 3 0 0)] State.reset) = (.disk (callOf 3 0 0), State.reset) :=
  ⟨rfl, rfl, rfl, by decide, by decide, rfl⟩

/-- A store unavailable, a sector past the end, and the last sector that lies in the store. -/
theorem witness_DiskReadReturnsTheSector :
    (callOf 1 0 0).cmd = 1 ∧ { goodDraws with unavailable := true }.unavailable = true ∧
      goodDraws.unavailable = false ∧ oneSector.length < (1 : Word).toNat * 1024 + 1024 ∧
      (0 : Word).toNat * 1024 + 1024 ≤ oneSector.length := by
  refine ⟨rfl, rfl, rfl, ?_, ?_⟩ <;> rw [oneSector, List.length_replicate] <;> decide
theorem witness_DiskWriteStoresTheSector :
    (callOf 2 0 7).cmd = 2 ∧ (callOf 2 0 7).draws.unavailable = false ∧ (callOf 2 0 7).draws.shortWrite = false :=
  ⟨rfl, rfl, rfl⟩

/-- An unavailable store, a short WRITE, and one that succeeds. -/
theorem witness_FailedWriteStaysWithinTheSector :
    (callOf 2 0 7).cmd = 2 ∧ { goodDraws with unavailable := true }.unavailable = true ∧
      goodDraws.unavailable = false ∧ { goodDraws with shortWrite := true }.shortWrite = true ∧
      goodDraws.shortWrite = false ∧
      (diskHandle { callOf 2 0 7 with draws := { goodDraws with unavailable := true } } []).1.result ≠ .ok ∧
      (diskHandle { callOf 2 0 7 with draws := { goodDraws with shortWrite := true } } []).1.result ≠ .ok := by
  refine ⟨rfl, rfl, rfl, rfl, rfl, ?_, ?_⟩ <;> decide

/-- A WRITE of sector 1 that landed nothing but a word in the gap behind a store of one word. -/
theorem witness_FailedWriteReachesEveryAllowedStore :
    ([5] : Store).length ≤ ([5, 9] : Store).length ∧
      ([5, 9] : Store).length ≤ max ([5] : Store).length ((1 : Word).toNat * 1024 + 1024) ∧
      (∀ i, i < min ([5] : Store).length ((1 : Word).toNat * 1024) → ([5, 9] : Store)[i]? = ([5] : Store)[i]?) ∧
      (∀ i, (1 : Word).toNat * 1024 + 1024 ≤ i → i < ([5] : Store).length →
        ([5, 9] : Store)[i]? = ([5] : Store)[i]?) ∧
      (DiskFault.unavailable = .unavailable ∨ DiskFault.unavailable = .shortWrite) ∧
      (DiskFault.shortWrite = .unavailable ∨ DiskFault.shortWrite = .shortWrite) := by
  refine ⟨by decide, by decide, fun i hi => ?_, fun i h1 h2 => ?_, .inl rfl, .inr rfl⟩
  · have h : i = 0 := by simp at hi; omega
    subst h
    rfl
  · simp at h1 h2
    omega

set_option maxRecDepth 20000 in
theorem witness_WriteThenReadReturnsTheBuffer :
    (callOf 2 1 7).cmd = 2 ∧ (diskHandle (callOf 2 1 7) []).1.result = .ok ∧
      (∀ c ∈ [callOf 2 0 9], ¬ (c.cmd = 2 ∧ c.sector = (callOf 2 1 7).sector)) ∧ (callOf 1 1 0).cmd = 1 ∧
      (callOf 1 1 0).sector = (callOf 2 1 7).sector ∧
      (diskHandle (callOf 1 1 0) ([callOf 2 0 9].foldl (fun e c => (diskHandle c e).2)
        (diskHandle (callOf 2 1 7) []).2)).1.result = .ok := by
  refine ⟨rfl, rfl, by simp [callOf], rfl, rfl, ?_⟩
  show (diskRead (callOf 1 1 0) (writeSector (writeSector [] 1 (bufferOf 7)) 0 (bufferOf 9))).1.result = .ok
  rw [diskRead, show (callOf 1 1 0).draws.unavailable = false from rfl]
  have h : readSector (writeSector (writeSector [] 1 (bufferOf 7)) 0 (bufferOf 9)) (callOf 1 1 0).sector ≠ none := by
    rw [Ne, readSector_eq_none, writeSector_length, writeSector_length]
    decide
  cases hr : readSector (writeSector (writeSector [] 1 (bufferOf 7)) 0 (bufferOf 9)) (callOf 1 1 0).sector with
  | none => exact absurd hr h
  | some b => rfl
theorem witness_DiskCallLeavesTheEngine :
    nextMove (withMoves [.disk (callOf 2 0 7)] State.reset) = (.disk (callOf 2 0 7), State.reset) ∧
      (callOf 2 0 7).draws.stalls = false := ⟨rfl, rfl⟩
theorem witness_ResetLeavesTheStore :
    ∃ t, step (withMoves [.reset (launchOf [])] State.reset) = .next t ∧
      ∀ c, (nextMove (withMoves [.reset (launchOf [])] State.reset)).1 ≠ .disk c := ⟨_, rfl, fun _ h => by cases h⟩

/-- An illegal configuration, an odd file, a file of one word too many, and one that just fits. -/
theorem witness_HostResetLaunchesOrIsRefused :
    configLegal { Config.tc with timer := .ticks 0 } = false ∧ configLegal tc16 = true ∧
      (launchOf [1]).file.length % 2 = 1 ∧ 2 * tc16.memSize < (launchOf (List.replicate 34 0)).file.length ∧
      (launchOf (List.replicate 34 0)).file.length % 2 = 0 ∧
      (launchOf (List.replicate 32 0)).file.length ≤ 2 * tc16.memSize := by decide

/-- An iteration as the first move of such a launch, and after a keyboard write of its host. -/
theorem witness_IoUnavailableRunsNothing :
    (resetState Config.tc [] none (Vector.replicate numRegs 0) false [] 0).status = .ioUnavailable ∧
    (nextMove (resetState Config.tc [] none (Vector.replicate numRegs 0) false [] 0)).1 = .engine silentDraws ∧
    ∃ t, step (withMoves [.kbdWrite 7] { State.reset with status := .ioUnavailable }) = .next t ∧
      t.status = .ioUnavailable ∧ (nextMove t).1 = .engine silentDraws ∧
      ∀ l, (nextMove (withMoves [.kbdWrite 7] { State.reset with status := .ioUnavailable })).1 ≠ .reset l :=
  ⟨rfl, rfl, _, rfl, rfl, rfl, fun _ h => by cases h⟩
theorem witness_ImageFilesRoundTrip : ([0x100A] : List Word)[0]? = some 0x100A := by decide
theorem witness_CodesAreAsTabled : Status.code .halted = Status.code .halted := rfl

end Sys2Proof.Tests
end

/-! The invariant of the state (spec/00_scope.md rule R9, spec/10_state.md rules R33, R37, R39, R41): one lemma per
operation that keeps it, and from these the step. -/

namespace Sys2Proof.Machine

/-- The legal configurations, clause by clause (R9, R230). -/
theorem configLegal_iff {c : Config} : configLegal c = true ↔
    1 ≤ c.memSize ∧ c.memSize ≤ 65536 ∧ c.resetVector ≤ 65535 ∧ (∀ n, c.timer = .ticks n → 1 ≤ n) ∧
    c.kbdAddr < c.memSize ∧ c.videoBase + c.videoRows * c.videoCols ≤ c.memSize ∧
    (c.kbdAddr < c.videoBase ∨ c.videoBase + c.videoRows * c.videoCols ≤ c.kbdAddr) ∧
    c.romSize ≤ c.memSize := by
  cases h : c.timer <;> simp [configLegal, h, and_assoc]

/-- The timer's law under `Ticks(n)`. -/
theorem timerOk_of_ticks {s : State} {n : Nat} (hn : s.cfg.timer = .ticks n) :
    timerOk s = true ↔ s.tick < n ∧ (s.pending = true → s.tick = 0) := by
  cases hp : s.pending <;> simp [timerOk, hn, hp]

/-- Under `WallClock` the timer has no law. -/
theorem timerOk_of_wallClock {s : State} (hw : s.cfg.timer = .wallClock) : timerOk s = true := by
  simp [timerOk, hw]

/-- With no interrupt pending, advancing the timer keeps its law: the tick counts up below the threshold, or goes to
0 as the flag is set. -/
theorem timerOk_timerTick {s : State} (fired : Option Bool) (h : timerOk s = true) (hp : s.pending = false) :
    timerOk (timerTick fired s) = true := by
  cases ht : s.cfg.timer with
  | wallClock => exact timerOk_of_wallClock (by rw [timerTick_cfg, ht])
  | ticks n =>
    rw [timerOk_of_ticks ht] at h
    rw [timerOk_of_ticks (n := n) (by rw [timerTick_cfg, ht])]
    simp only [timerTick, ht]
    split
    · exact ⟨by simp only; omega, fun _ => rfl⟩
    · exact ⟨by simp only; omega, by simp [hp]⟩

/-- A running machine has no fault record. -/
theorem record_eq_none_of_running {s : State} (h : recordMatches s.status s.record = true)
    (hrun : s.status = .running) : s.record = none := by
  cases hr : s.record with
  | none => rfl
  | some r => cases hk : r.kind <;> simp [recordMatches, FaultKind.status, hrun, hr, hk] at h

/-- The invariant does not speak of the moves to come. -/
theorem inv_nextMove {s s0 : State} {m : Move} (h : Inv s) (hm : nextMove s = (m, s0)) : Inv s0 := by
  rw [nextMove_eq hm]
  exact { h with }

theorem inv_serviceInterrupt {s : State} (h : Inv s) : Inv (serviceInterrupt s) := by
  have ht : timerOk { s with pending := false } = true := by
    cases hc : s.cfg.timer with
    | wallClock => exact timerOk_of_wallClock hc
    | ticks n =>
      obtain ⟨hlt, -⟩ := (timerOk_of_ticks hc).1 h.timer
      exact (timerOk_of_ticks (s := { s with pending := false }) hc).2 ⟨hlt, nofun⟩
  rw [serviceInterrupt_eq]
  exact { h with timer := ht }

theorem inv_kbdWrites {s : State} (vs : List Word) (h : Inv s) : Inv (kbdWrites vs s) := by
  have ⟨hwf, hin⟩ := kbdWrites_wf (vs := vs) h.memWf h.memWithin
  rw [kbdWrites_frame]
  exact { h with memWf := hwf, memWithin := hin }

/-- The fetch below MEM_SIZE advances the pc to at most 65536 (R33, R34). -/
theorem inv_atExecute {s : State} (d : EngineDraws) (h : Inv s) (hp : s.pc < s.cfg.memSize) :
    Inv (atExecute d s) := by
  obtain ⟨-, hsize, -⟩ := configLegal_iff.1 h.legal
  have hpc : s.pc + 1 ≤ 65536 := by omega
  exact inv_kbdWrites d.kbd { inv_serviceInterrupt h with pcRange := hpc }

/-- Taking a fault writes a record of the status it writes (R41). -/
theorem inv_raise {s : State} (k : FaultKind) (fa : Nat) (w : Option Word) (a : Option Nat) (h : Inv s) :
    Inv (raise k fa w a s) :=
  { h with record := by simp [recordMatches] }

/-- A running machine that stops without a fault has no record (R41). -/
theorem inv_halt {s : State} {st : Status} (h : Inv s) (hrun : s.status = .running) (hst : st.isFault = false) :
    Inv (halt st s) :=
  { h with record := by simp [recordMatches, record_eq_none_of_running h.record hrun, hst] }

/-- A meaning leaves the pc at fa + 1, or sets it to a 12-bit target. -/
theorem exec_pc {i : Instr} {s t : State} (h : exec i s = .next t) : t.pc = s.pc ∨ t.pc < 4096 := by
  cases i with
  | jmp addr12 =>
    obtain rfl : setPc (jmpTarget addr12) s = t := Host.Outcome.next.inj h
    exact .inr (by simpa using addr12.isLt)
  | lod rd addr8 =>
    simp only [exec, execLod] at h
    split at h <;> (cases h; exact .inl rfl)
  | add rd rs =>
    simp only [exec, execAdd] at h
    split at h <;> (cases h; exact .inl rfl)
  | hlt => cases h; exact .inl rfl

theorem inv_exec {i : Instr} {s t : State} (h : Inv s) (hrun : s.status = .running)
    (hx : exec i s = .next t) : Inv t := by
  have hpc : t.pc ≤ 65536 := by
    have := h.pcRange
    have := exec_pc hx
    omega
  obtain ⟨r, v, e⟩ | ⟨n, e⟩ | e | ⟨k, a, e⟩ := exec_cases i s <;>
    obtain rfl := Host.Outcome.next.inj (e.symm.trans hx)
  · exact { h with }
  · exact { h with pcRange := hpc }
  · exact inv_halt h hrun rfl
  · exact inv_raise k _ _ a h

/-- A meaning leaves the pending flag alone. -/
theorem exec_pending {i : Instr} {s t : State} (hx : exec i s = .next t) : t.pending = s.pending := by
  obtain ⟨u, hu, hframe⟩ := exec_frame i s
  obtain rfl := Host.Outcome.next.inj (hu.symm.trans hx)
  rw [hframe]

/-- The end of an iteration, whose interrupt has been serviced at its start. -/
theorem inv_finishIteration {s : State} (fired : Option Bool) (h : Inv s) (hp : s.pending = false) :
    Inv (finishIteration fired s) := by
  unfold finishIteration
  split
  · have ht := timerOk_timerTick fired h.timer hp
    rw [timerTick_frame] at ht ⊢
    exact { h with timer := ht }
  · exact h

theorem inv_iteration {d : EngineDraws} {s t : State} (h : Inv s) (hi : iteration exec d s = .next t) :
    Inv t := by
  obtain ⟨hrun, ⟨-, rfl⟩ | ⟨-, -, rfl⟩ | ⟨-, hp, hfetched⟩⟩ := iteration_cases hi
  · exact inv_halt h hrun rfl
  · exact inv_raise _ _ _ _ (inv_serviceInterrupt h)
  · have he := inv_atExecute d h hp
    obtain ⟨op, -, rfl⟩ | ⟨i, v, -, hv, rfl⟩ := hfetched
    · exact inv_raise _ _ _ _ he
    · have hpend : v.pending = false := by rw [exec_pending hv, atExecute_pending]
      exact inv_finishIteration _ (inv_exec he (by rw [atExecute_status, hrun]) hv) hpend

/-- A disk call that returns changes only the store, the port's outputs and the trace (R189). -/
theorem inv_diskMove {c : DiskCall} {s t : State} (h : Inv s) (hd : diskMove c s = .next t) : Inv t := by
  unfold diskMove at hd
  split at hd
  · cases hd
  · cases hd
    exact { h with }

/-- What the two loads leave is canonical, and within MEM_SIZE where the image fits (R251, R252). -/
theorem resetMem_wf_within {c : Config} {image : List Word} (d : Store) (hrom : c.romSize ≤ c.memSize)
    (hsize : image.length ≤ c.memSize) :
    Memory.wf (programLoad image (bootLoad c d [])) = true ∧
      Memory.within c.memSize (programLoad image (bootLoad c d [])) = true := by
  have hboot : (d.take c.romSize).length ≤ c.romSize := List.length_take_le _ _
  exact ⟨Memory.wf_load _ _ (Memory.wf_load _ _ rfl),
    Memory.within_load (by omega) (Memory.within_load (by omega) rfl)⟩

/-- Every reset in a legal configuration with an image that fits meets the invariant. -/
theorem inv_resetState {c : Config} {image : List Word} (diskInit : Option Store) (regInit : Vector Word numRegs)
    (ioOk : Bool) (inputs : List Move) (draws : Nat) (hc : configLegal c = true)
    (hsize : image.length ≤ c.memSize) : Inv (resetState c image diskInit regInit ioOk inputs draws) := by
  obtain ⟨-, -, hvec, htimer, -, -, -, hrom⟩ := configLegal_iff.1 hc
  have ⟨hwf, hin⟩ := resetMem_wf_within (initialStore c diskInit) hrom hsize
  refine ⟨hc, Nat.le_succ_of_le hvec, hwf, hin, ?_, by cases ioOk <;> rfl⟩
  cases ht : c.timer with
  | ticks n => exact (timerOk_of_ticks ht).2 ⟨htimer n ht, fun _ => rfl⟩
  | wallClock => exact timerOk_of_wallClock ht

/-- A launch that is not refused: the configuration is legal, and the file holds an image that fits (R9, R252). -/
theorem launchImage_eq_ok {c : Config} {file : List Byte} {image : List Word} :
    launchImage c file = .ok image ↔
      configLegal c = true ∧ imageOfFile c.fileByteOrder file = some image ∧ image.length ≤ c.memSize := by
  unfold launchImage
  split
  · next hc =>
    split
    · next hf => simp [hf]
    · next ws hf =>
      rw [hf]
      split
      · next hl => exact ⟨fun h => by cases h; exact ⟨hc, rfl, hl⟩, fun ⟨_, h, _⟩ => by cases h; rfl⟩
      · next hl => exact ⟨fun h => (by cases h), fun ⟨_, h, hle⟩ => absurd hle (by cases h; exact hl)⟩
  · next hc => simp [hc]

/-- The host's reset, where the launch is not refused (R250, R255). -/
theorem resetMove_of_ok {l : Launch} {s : State} {image : List Word} (h : launchImage s.cfg l.file = .ok image) :
    resetMove l s = .next (resetState s.cfg image (some s.disk) l.regInit l.ioOk s.inputs s.draws) := by
  rw [resetMove, h]

/-- The host's reset, where the launch is refused (R252). -/
theorem resetMove_of_error {l : Launch} {s : State} {r : Refusal} (h : launchImage s.cfg l.file = .error r) :
    resetMove l s = .refused r := by
  rw [resetMove, h]

theorem inv_resetMove {l : Launch} {s t : State} (hr : resetMove l s = .next t) : Inv t := by
  cases hl : launchImage s.cfg l.file with
  | error r => rw [resetMove_of_error hl] at hr; cases hr
  | ok image =>
    obtain ⟨hc, -, hsize⟩ := launchImage_eq_ok.1 hl
    obtain rfl := Host.Outcome.next.inj ((resetMove_of_ok hl).symm.trans hr)
    exact inv_resetState _ _ _ _ _ hc hsize

theorem inv_moveStep {m : Move} {s t : State} (h : Inv s) (hm : moveStep exec m s = .next t) : Inv t := by
  cases m with
  | engine d => exact inv_iteration h hm
  | kbdWrite v =>
    obtain rfl := Host.Outcome.next.inj hm
    exact inv_kbdWrites [v] h
  | disk c => exact inv_diskMove h hm
  | reset l => exact inv_resetMove hm

/-- Settles O30: the state that makes the next move meets the invariant, and each agent's move keeps it. -/
theorem stepKeepsTheInvariant : Obligations.StepKeepsTheInvariant := by
  intro s t h hs
  rw [step_eq] at hs
  exact inv_moveStep (inv_nextMove h rfl) hs

end Sys2Proof.Machine

/-! The host's reset as a step (spec/70_reset_and_hazards.md rules R250, R252): when a program file is refused, and
what it launches otherwise. -/

namespace Sys2Proof.Machine

/-- A file has no image exactly where its number of bytes is odd (R252). -/
theorem imageOfFile_eq_none {order : ByteOrder} {file : List Byte} :
    imageOfFile order file = none ↔ file.length % 2 = 1 := by
  induction file using imageOfFile.induct order with
  | case1 => simp [imageOfFile]
  | case2 => simp [imageOfFile]
  | case3 b0 b1 rest hrest ih => simpa [imageOfFile, hrest, Nat.add_assoc] using ih
  | case4 b0 b1 rest ws hrest ih => simpa [imageOfFile, hrest, Nat.add_assoc] using ih

/-- The image of a file holds one word for every two bytes (R252). -/
theorem imageOfFile_length {order : ByteOrder} {file : List Byte} {image : List Word}
    (h : imageOfFile order file = some image) : 2 * image.length = file.length := by
  induction file using imageOfFile.induct order generalizing image with
  | case1 => cases h; rfl
  | case2 => cases h
  | case3 b0 b1 rest hrest => simp [imageOfFile, hrest] at h
  | case4 b0 b1 rest ws hrest ih =>
    simp only [imageOfFile, hrest] at h
    cases h
    have := ih hrest
    simp only [List.length_cons]
    omega

/-- A file of an even number of bytes has an image, of half as many words (R252). -/
theorem exists_imageOfFile {file : List Byte} (order : ByteOrder) (h : file.length % 2 = 0) :
    ∃ image, imageOfFile order file = some image ∧ 2 * image.length = file.length := by
  cases hf : imageOfFile order file with
  | none => have := imageOfFile_eq_none.1 hf; omega
  | some image => exact ⟨image, rfl, imageOfFile_length hf⟩

/-- A configuration outside the legal values is refused before the file is looked at (R9). -/
theorem launchImage_of_illegal {c : Config} (file : List Byte) (hc : configLegal c = false) :
    launchImage c file = .error .configRefused := by
  simp [launchImage, hc]

theorem launchImage_of_odd {c : Config} {file : List Byte} (hc : configLegal c = true)
    (hodd : file.length % 2 = 1) : launchImage c file = .error .imageOddBytes := by
  simp [launchImage, hc, imageOfFile_eq_none.2 hodd]

theorem launchImage_of_tooLarge {c : Config} {file : List Byte} (hc : configLegal c = true)
    (heven : file.length % 2 = 0) (hlarge : 2 * c.memSize < file.length) :
    launchImage c file = .error .imageTooLarge := by
  obtain ⟨image, himage, hlen⟩ := exists_imageOfFile c.fileByteOrder heven
  have hsize : ¬ image.length ≤ c.memSize := by omega
  simp [launchImage, hc, himage, hsize]

/-- Settles O56: the step is the host's reset, and each of the four cases fixes what the launch of the file is. -/
theorem hostResetLaunchesOrIsRefused : Obligations.HostResetLaunchesOrIsRefused := by
  intro s s0 l hm
  have hs0 := nextMove_eq hm
  have hcfg : s0.cfg = s.cfg := by rw [hs0]
  have hdisk : s0.disk = s.disk := by rw [hs0]
  have hdraws : s0.draws = s.draws := by rw [hs0]
  have hstep : step s = resetMove l s0 := step_of_nextMove hm
  rw [hstep, ← hcfg, ← hdisk, ← hdraws]
  refine ⟨fun hc => ?illegal, fun hc hodd => ?odd, fun hc heven hlarge => ?tooLarge, fun hc heven hfits => ?fits⟩
  case illegal => exact resetMove_of_error (launchImage_of_illegal l.file hc)
  case odd => exact resetMove_of_error (launchImage_of_odd hc hodd)
  case tooLarge => exact resetMove_of_error (launchImage_of_tooLarge hc heven hlarge)
  case fits =>
    obtain ⟨image, himage, hlen⟩ := exists_imageOfFile s0.cfg.fileByteOrder heven
    exact ⟨image, himage, hlen, resetMove_of_ok (launchImage_eq_ok.2 ⟨hc, himage, by omega⟩)⟩

end Sys2Proof.Machine

/-! What a program can observe (spec/10_state.md rule R45): the state with the timer's state and the trace blanked
out.  Every operation of a step takes states with one view to states with one view. -/

namespace Sys2Proof.Machine

/-- What a program can observe of a state: all of it but the pending flag, the tick counter, the count of free values
and the trace (R45). -/
def State.view (s : State) : State := { s with pending := false, tick := 0, draws := 0, trace := [] }

/-- What a program can observe of a step: the view of the next state, or the stop itself. -/
def viewAnswer : Answer → Answer
  | .next t => .next t.view
  | .fault q => .fault q
  | .refused r => .refused r

/-- Two states with one view differ only in the timer's state and the trace. -/
theorem eq_of_view_eq {t u : State} (h : t.view = u.view) :
    u = { t with pending := u.pending, tick := u.tick, draws := u.draws, trace := u.trace } := by
  obtain ⟨⟩ := t
  obtain ⟨⟩ := u
  simp only [State.view, State.mk.injEq] at h
  simp [h]

/-- Two outcomes with one view are two next states with one view, or one stop. -/
theorem cases_of_viewAnswer_eq {a b : Answer} (h : viewAnswer a = viewAnswer b) :
    (∃ t u, a = .next t ∧ b = .next u ∧ t.view = u.view) ∨ (∃ q, a = .fault q ∧ b = .fault q) ∨
      ∃ r, a = .refused r ∧ b = .refused r := by
  cases a with
  | next t =>
    cases b with
    | next u => exact .inl ⟨t, u, rfl, rfl, Host.Outcome.next.inj h⟩
    | fault | refused => cases h
  | fault q =>
    cases b with
    | fault => exact .inr (.inl ⟨q, rfl, by cases h; rfl⟩)
    | next | refused => cases h
  | refused r =>
    cases b with
    | refused => exact .inr (.inr ⟨r, rfl, by cases h; rfl⟩)
    | next | fault => cases h

@[simp] theorem view_serviceInterrupt (s : State) : (serviceInterrupt s).view = s.view := by
  rw [serviceInterrupt_eq]
  rfl

@[simp] theorem view_finishIteration (fired : Option Bool) (s : State) : (finishIteration fired s).view = s.view := by
  rw [finishIteration_frame]
  rfl

/-- The host's keyboard writes read nothing that the view blanks out. -/
theorem view_kbdWrites (vs : List Word) (s : State) : (kbdWrites vs s.view).view = (kbdWrites vs s).view := by
  induction vs generalizing s with
  | nil => rfl
  | cons v vs ih =>
    calc (kbdWrites vs (kbdWrite v s.view)).view
        = (kbdWrites vs (kbdWrite v s.view).view).view := (ih _).symm
      _ = (kbdWrites vs (kbdWrite v s).view).view := rfl
      _ = (kbdWrites vs (kbdWrite v s)).view := ih _

/-- No meaning reads what the view blanks out. -/
theorem viewAnswer_exec (i : Instr) (s : State) : viewAnswer (exec i s.view) = viewAnswer (exec i s) := by
  cases i with
  | lod rd addr8 =>
    have hread : memRead (lodAddress addr8) s.view = memRead (lodAddress addr8) s := rfl
    simp only [exec, execLod, hread]
    cases memRead (lodAddress addr8) s <;> rfl
  | add rd rs =>
    have hread : addOperands rd rs s.view = addOperands rd rs s := rfl
    simp only [exec, execAdd, hread]
    cases addOperands rd rs s <;> rfl
  | jmp addr12 => rfl
  | hlt => rfl

/-- Of an iteration that executes an instruction, a program observes the meaning of the instruction alone. -/
theorem viewAnswer_executeFetched_of_instr {i : Instr} {s : State} (fired : Option Bool)
    (hd : decode s.ir = .instr i) : viewAnswer (executeFetched exec fired s) = viewAnswer (exec i s) := by
  obtain ⟨t, ht, -⟩ := exec_frame i s
  simp only [executeFetched, hd, ht, viewAnswer, view_finishIteration]

theorem viewAnswer_executeFetched (fired : Option Bool) (s : State) :
    viewAnswer (executeFetched exec fired s.view) = viewAnswer (executeFetched exec fired s) := by
  cases hd : decode s.ir with
  | illegal op =>
    have hdv : decode s.view.ir = .illegal op := hd
    simp only [executeFetched, hd, hdv]
    rfl
  | instr i =>
    rw [viewAnswer_executeFetched_of_instr fired hd, viewAnswer_executeFetched_of_instr (s := s.view) fired hd,
      viewAnswer_exec]

/-- The fetch latches nothing that the view blanks out. -/
theorem fetch_view (s : State) : fetch s.view = (fetch s).map State.view := by
  have hread : memRead s.view.pc s.view = memRead s.pc s := rfl
  simp only [fetch, hread]
  cases memRead s.pc s <;> rfl

theorem viewAnswer_fetchAndExecute (d : EngineDraws) (s : State) :
    viewAnswer (fetchAndExecute exec d s.view) = viewAnswer (fetchAndExecute exec d s) := by
  rw [fetchAndExecute, fetchAndExecute, fetch_view]
  cases fetch s with
  | none => rfl
  | some t =>
    calc viewAnswer (executeFetched exec d.fired (kbdWrites d.kbd t.view))
        = viewAnswer (executeFetched exec d.fired (kbdWrites d.kbd t.view).view) :=
          (viewAnswer_executeFetched _ _).symm
      _ = viewAnswer (executeFetched exec d.fired (kbdWrites d.kbd t).view) := by rw [view_kbdWrites]
      _ = viewAnswer (executeFetched exec d.fired (kbdWrites d.kbd t)) := viewAnswer_executeFetched _ _

/-- An iteration, whose interrupt service changes nothing that a program observes (R234). -/
theorem viewAnswer_iteration (d : EngineDraws) (s : State) :
    viewAnswer (iteration exec d s.view) = viewAnswer (iteration exec d s) := by
  have hstatus : s.view.status = s.status := rfl
  by_cases hrun : s.status = .running
  · simp only [iteration, hstatus, if_pos hrun]
    cases d.poll with
    | never => rfl
    | quit => rfl
    | clear =>
      calc viewAnswer (fetchAndExecute exec d (serviceInterrupt s.view))
          = viewAnswer (fetchAndExecute exec d (serviceInterrupt s).view) := by rw [view_serviceInterrupt]; rfl
        _ = viewAnswer (fetchAndExecute exec d (serviceInterrupt s)) := viewAnswer_fetchAndExecute d _
  · simp only [iteration, hstatus, if_neg hrun]

theorem viewAnswer_diskMove (c : DiskCall) (s : State) :
    viewAnswer (diskMove c s.view) = viewAnswer (diskMove c s) := by
  unfold diskMove
  split <;> rfl

theorem viewAnswer_resetMove (l : Launch) (s : State) :
    viewAnswer (resetMove l s.view) = viewAnswer (resetMove l s) := by
  cases hl : launchImage s.cfg l.file with
  | error r => rw [resetMove_of_error hl, resetMove_of_error (s := s.view) hl]
  | ok image =>
    rw [resetMove_of_ok hl, resetMove_of_ok (s := s.view) hl]
    rfl

/-- Each agent's move, made from the view, leaves what a program observes of the move made from the state. -/
theorem viewAnswer_moveStep (m : Move) (s : State) :
    viewAnswer (moveStep exec m s.view) = viewAnswer (moveStep exec m s) := by
  cases m with
  | engine d => exact viewAnswer_iteration d s
  | kbdWrite v => exact congrArg Host.Outcome.next (view_kbdWrites [v] s)
  | disk c => exact viewAnswer_diskMove c s
  | reset l => exact viewAnswer_resetMove l s

/-- The next move does not depend on what the view blanks out. -/
theorem nextMove_view (s : State) : nextMove s.view = ((nextMove s).1, (nextMove s).2.view) := by
  cases hi : s.inputs <;> simp only [nextMove, State.view, hi]

theorem viewAnswer_step (s : State) : viewAnswer (step s.view) = viewAnswer (step s) := by
  rw [step_eq, step_eq, nextMove_view, viewAnswer_moveStep]

/-- Settles O36: a step from a state and a step from its view have one view, and the two states have the same view. -/
theorem timerStateIsInvisibleToPrograms : Obligations.TimerStateIsInvisibleToPrograms := by
  intro s p n k tr
  have hview : viewAnswer (step s) =
      viewAnswer (step { s with pending := p, tick := n, draws := k, trace := tr }) :=
    (viewAnswer_step s).symm.trans (viewAnswer_step { s with pending := p, tick := n, draws := k, trace := tr })
  obtain ⟨t, u, ht, hu, htu⟩ | ⟨q, hq, hq'⟩ | ⟨r, hr, hr'⟩ := cases_of_viewAnswer_eq hview
  · rw [ht, hu]
    exact eq_of_view_eq htu
  · rw [hq, hq']
  · rw [hr, hr']

end Sys2Proof.Machine

/-! Who writes the pc and the registers (spec/10_state.md rules R31, R34): what each meaning and each move does to
them, and from these the step. -/

namespace Sys2Proof.Machine

/-- A disk call that returns leaves the engine alone (R189). -/
theorem diskMove_frame {c : DiskCall} {s t : State} (h : diskMove c s = .next t) :
    t = { s with disk := t.disk, diskOut := t.diskOut, trace := t.trace } := by
  unfold diskMove at h
  split at h
  · cases h
  · obtain rfl := Host.Outcome.next.inj h
    rfl

/-- A reset that is not refused writes RESET_VECTOR to the pc (R250). -/
theorem resetMove_pc {l : Launch} {s t : State} (h : resetMove l s = .next t) : t.pc = s.cfg.resetVector := by
  cases hl : launchImage s.cfg l.file with
  | error r => rw [resetMove_of_error hl] at h; cases h
  | ok image =>
    obtain rfl := Host.Outcome.next.inj ((resetMove_of_ok hl).symm.trans h)
    rfl

/-- Only JMP sets the pc. -/
theorem exec_pc_of_not_jmp {i : Instr} {s t : State} (h : exec i s = .next t) (hi : ∀ addr12, i ≠ .jmp addr12) :
    t.pc = s.pc := by
  cases i with
  | jmp addr12 => exact absurd rfl (hi addr12)
  | lod rd addr8 =>
    simp only [exec, execLod] at h
    split at h <;> (cases h; rfl)
  | add rd rs =>
    simp only [exec, execAdd] at h
    split at h <;> (cases h; rfl)
  | hlt => cases h; rfl

/-- Only the register that is written reads differently. -/
theorem eq_of_readReg_writeReg_ne {r j : Nat} {v : Word} {s : State}
    (h : readReg j (writeReg r v s) ≠ readReg j s) : r = j := by
  by_contra hr
  exact h (by rw [readReg_writeReg, if_neg fun hj => hr hj.1.symm])

/-- A meaning that changes a register is a LOD or an ADD that names it. -/
theorem exec_changes_reg {i : Instr} {s t : State} {j : Nat} (h : exec i s = .next t)
    (hne : readReg j t ≠ readReg j s) :
    (∃ rd addr8, i = .lod rd addr8 ∧ rd.toNat = j) ∨ ∃ rs, i = .add j rs := by
  cases i with
  | lod rd addr8 =>
    simp only [exec, execLod] at h
    split at h <;> obtain rfl := Host.Outcome.next.inj h
    · exact absurd rfl hne
    · exact .inl ⟨rd, addr8, rfl, eq_of_readReg_writeReg_ne hne⟩
  | add rd rs =>
    simp only [exec, execAdd] at h
    split at h <;> obtain rfl := Host.Outcome.next.inj h
    · exact absurd rfl hne
    · exact .inr ⟨rs, by rw [eq_of_readReg_writeReg_ne hne]⟩
  | jmp addr12 => cases h; exact absurd rfl hne
  | hlt => cases h; exact absurd rfl hne

/-- What an iteration leaves in the pc: JMP's target or fa + 1 where the fetch did not fault, and the old pc where it
did or where the run was quit (R34, R123). -/
theorem iteration_pc {d : EngineDraws} {s t : State} (h : iteration exec d s = .next t) :
    t.pc = if d.poll = .clear ∧ s.pc < s.cfg.memSize then
        match decode (Memory.get s.mem s.pc) with
        | .instr (.jmp addr12) => addr12.toNat
        | _ => s.pc + 1
      else s.pc := by
  obtain ⟨-, ⟨hquit, rfl⟩ | ⟨-, hout, rfl⟩ | ⟨hclear, hin, hfetched⟩⟩ := iteration_cases h
  · rw [halt_pc, if_neg (by simp [hquit])]
  · rw [raise_pc, serviceInterrupt_pc, if_neg (by omega)]
  · rw [if_pos ⟨hclear, hin⟩]
    obtain ⟨op, hd, rfl⟩ | ⟨i, v, hd, hv, rfl⟩ := hfetched
    · rw [hd, raise_pc, atExecute_pc]
    · rw [hd, finishIteration_pc]
      cases i with
      | jmp addr12 =>
        obtain rfl : setPc (jmpTarget addr12) (atExecute d s) = v := Host.Outcome.next.inj hv
        exact jmpTarget_eq addr12
      | lod | add | hlt => rw [exec_pc_of_not_jmp hv nofun, atExecute_pc]

/-- An iteration that changes a register has executed a LOD or an ADD that names it (R31). -/
theorem iteration_changes_reg {d : EngineDraws} {s t : State} {j : Nat} (h : iteration exec d s = .next t)
    (hne : readReg j t ≠ readReg j s) :
    d.poll = .clear ∧ s.pc < s.cfg.memSize ∧
      ((∃ rd addr8, decode (Memory.get s.mem s.pc) = .instr (.lod rd addr8) ∧ rd.toNat = j) ∨
        ∃ rs, decode (Memory.get s.mem s.pc) = .instr (.add j rs)) := by
  have hregs : t.regs ≠ s.regs := fun hr => hne (readReg_congr hr)
  obtain ⟨-, ⟨-, rfl⟩ | ⟨-, -, rfl⟩ | ⟨hclear, hin, ⟨op, -, rfl⟩ | ⟨i, v, hd, hv, rfl⟩⟩⟩ := iteration_cases h
  · exact absurd (halt_regs _ _) hregs
  · exact absurd (by rw [raise_regs, serviceInterrupt_regs]) hregs
  · exact absurd (by rw [raise_regs, atExecute_regs]) hregs
  · rw [readReg_congr (finishIteration_regs _ _), ← readReg_congr (atExecute_regs d s)] at hne
    refine ⟨hclear, hin, ?_⟩
    obtain ⟨rd, addr8, rfl, hrd⟩ | ⟨rs, rfl⟩ := exec_changes_reg hv hne
    · exact .inl ⟨rd, addr8, hd, hrd⟩
    · exact .inr ⟨rs, hd⟩

/-- Settles O34: the host's and the disk's moves leave the registers, and an iteration changes one only by executing a
LOD or an ADD that names it. -/
theorem registersChangeOnlyByInstructions : Obligations.RegistersChangeOnlyByInstructions := by
  intro s t i hstep hreset hne
  rw [step_eq, nextMove_state] at hstep
  cases hm : (nextMove s).1 with
  | engine d =>
    rw [hm] at hstep
    obtain ⟨hclear, hin, hnames⟩ := iteration_changes_reg hstep hne
    exact ⟨⟨d, rfl, hclear⟩, hin, hnames⟩
  | kbdWrite v =>
    rw [hm] at hstep
    obtain rfl := Host.Outcome.next.inj hstep
    exact absurd rfl hne
  | disk c =>
    rw [hm] at hstep
    exact absurd (by rw [diskMove_frame hstep]; rfl) hne
  | reset l => exact absurd hm (hreset l)

/-- Settles O35: a reset writes RESET_VECTOR, the host's and the disk's other moves leave the pc, and `iteration_pc`
says what an iteration does to it. -/
theorem whoWritesThePc : Obligations.WhoWritesThePc := by
  intro s t hstep
  rw [step_eq, nextMove_state] at hstep
  refine ⟨fun l hm => ?reset, fun v hm => ?kbdWrite, fun c hm => ?disk, fun d hm => ?engine⟩ <;> rw [hm] at hstep
  case reset => exact (resetMove_pc hstep :)
  case kbdWrite =>
    obtain rfl := Host.Outcome.next.inj hstep
    rfl
  case disk => rw [diskMove_frame hstep]
  case engine => exact (iteration_pc hstep :)

end Sys2Proof.Machine

/-! Memory, reset and the wall-clock timer (spec/10_state.md rules R37, R39, R47). -/

namespace Sys2Proof.Machine

/-- A canonical memory is read at its first listed address as the word listed there, which is not 0. -/
theorem Memory.get_head_ne_zero {a : Nat} {v : Word} {m : Memory} (h : Memory.wf ((a, v) :: m) = true) :
    Memory.get ((a, v) :: m) a ≠ 0 := by
  obtain ⟨hv, -, -⟩ := Memory.wf_cons.1 h
  simpa [Memory.get] using hv

/-- A canonical memory holds 0 below its first listed address. -/
theorem Memory.head_le_of_get_ne_zero {a b : Nat} {v : Word} {m : Memory} (h : Memory.wf ((a, v) :: m) = true)
    (hb : Memory.get ((a, v) :: m) b ≠ 0) : a ≤ b := by
  obtain ⟨-, hlt, -⟩ := Memory.wf_cons.1 h
  by_contra hab
  refine hb (Memory.get_eq_zero_of_lt fun c hc => ?_)
  obtain rfl | hc := List.mem_cons.1 hc
  · omega
  · have := hlt c hc
    omega

/-- Where two canonical memories with one first address read alike, so do their tails. -/
theorem Memory.get_tail_eq {a : Nat} {v w : Word} {m n : Memory} (hm : Memory.wf ((a, v) :: m) = true)
    (hn : Memory.wf ((a, w) :: n) = true)
    (h : ∀ b, Memory.get ((a, v) :: m) b = Memory.get ((a, w) :: n) b) (b : Nat) :
    Memory.get m b = Memory.get n b := by
  obtain ⟨-, hma, -⟩ := Memory.wf_cons.1 hm
  obtain ⟨-, hna, -⟩ := Memory.wf_cons.1 hn
  by_cases hb : b = a
  · subst hb
    rw [Memory.get_eq_zero_of_lt hma, Memory.get_eq_zero_of_lt hna]
  · simpa [Memory.get, hb] using h b

/-- Settles O38, by induction on one memory: two nonempty ones start at the same address with the same word. -/
theorem memoriesThatReadAlikeAreEqual : Obligations.MemoriesThatReadAlikeAreEqual := by
  intro m n hm hn h
  induction m generalizing n with
  | nil =>
    cases n with
    | nil => rfl
    | cons c n => exact absurd (h c.1).symm (Memory.get_head_ne_zero hn)
  | cons c m ih =>
    obtain ⟨a, v⟩ := c
    cases n with
    | nil => exact absurd (h a) (Memory.get_head_ne_zero hm)
    | cons d n =>
      obtain ⟨b, w⟩ := d
      have hab : a ≤ b := Memory.head_le_of_get_ne_zero hm (h b ▸ Memory.get_head_ne_zero hn)
      have hba : b ≤ a := Memory.head_le_of_get_ne_zero hn (h a ▸ Memory.get_head_ne_zero hm)
      obtain rfl := Nat.le_antisymm hab hba
      have hvw : v = w := by simpa [Memory.get] using h a
      obtain ⟨-, -, hmwf⟩ := Memory.wf_cons.1 hm
      obtain ⟨-, -, hnwf⟩ := Memory.wf_cons.1 hn
      rw [hvw, ih n hmwf hnwf (Memory.get_tail_eq hm hn h)]

/-- The boot words: the first ROM_SIZE words of the disk, and 0 behind them (R251). -/
theorem get_bootLoad (c : Config) (d : Store) (i : Nat) :
    Memory.get (bootLoad c d []) i = if i < min c.romSize d.length then d.getD i 0 else 0 := by
  rw [bootLoad, Memory.get_load 0 i _ Memory.wf_nil, List.length_take]
  by_cases hi : i < min c.romSize d.length
  · rw [if_pos (by omega), if_pos hi]
    have hrom : i < c.romSize := by omega
    simp [List.getD_eq_getElem?_getD, hrom]
  · rw [if_neg (by omega), if_neg hi, Memory.get_nil]

/-- Settles O53: the program load over the boot load over zeroed memory. -/
theorem resetMemoryHoldsTheLoads : Obligations.ResetMemoryHoldsTheLoads := by
  intro c image diskInit regInit ioOk inputs draws i
  have hboot : Memory.wf (bootLoad c (initialStore c diskInit) []) = true := Memory.wf_load 0 _ Memory.wf_nil
  calc Memory.get (programLoad image (bootLoad c (initialStore c diskInit) [])) i
      = if i < image.length then image.getD i 0 else Memory.get (bootLoad c (initialStore c diskInit) []) i := by
        rw [programLoad, Memory.get_load 0 i image hboot]
        simp only [Nat.zero_le, true_and, Nat.zero_add, Nat.sub_zero]
    _ = _ := by rw [get_bootLoad]

/-- Settles O32: a launch that is not refused has a legal configuration and an image that fits. -/
theorem everyLaunchMeetsTheInvariant : Obligations.EveryLaunchMeetsTheInvariant := by
  intro c file image diskInit regInit ioOk inputs draws h
  obtain ⟨hlegal, -, hsize⟩ := launchImage_eq_ok.1 h
  exact inv_resetState diskInit regInit ioOk inputs draws hlegal hsize

/-- Settles O31: the reset state is the launch of an empty program in the configuration TC. -/
theorem resetStateMeetsTheInvariant : Obligations.ResetStateMeetsTheInvariant :=
  everyLaunchMeetsTheInvariant Config.tc [] [] none (Vector.replicate numRegs 0) true [] 0 rfl

/-- The wall-clock timer that fires sets the flag and leaves a free timestamp (R231). -/
theorem timerTick_wallClock_fired {s : State} {fired : Option Bool} (hw : s.cfg.timer = .wallClock)
    (hf : fired.getD (Config.freeFired s.draws) = true) :
    timerTick fired s =
      { s with pending := true, tick := Config.freeTimestamp s.draws, draws := s.draws + 1 } := by
  simp only [timerTick, hw, hf, if_true]

/-- The wall-clock timer that does not fire only counts the free value it has used (R231). -/
theorem timerTick_wallClock_silent {s : State} {fired : Option Bool} (hw : s.cfg.timer = .wallClock)
    (hf : fired.getD (Config.freeFired s.draws) = false) :
    timerTick fired s = { s with draws := s.draws + 1 } := by
  simp [timerTick, hw, hf]

/-- Settles O29: the firing is the draw, or the free value where none is listed. -/
theorem wallClockTimerFollowsTheDraw : Obligations.WallClockTimerFollowsTheDraw := by
  intro s fired hw
  refine ⟨fired.getD (Config.freeFired s.draws), by rintro rfl; rfl, by rintro b rfl; rfl, ?_⟩
  cases hf : fired.getD (Config.freeFired s.draws) with
  | true =>
    rw [timerTick_wallClock_fired hw hf, Bool.or_true]
    exact ⟨rfl, nofun, rfl⟩
  | false =>
    rw [timerTick_wallClock_silent hw hf, Bool.or_false]
    exact ⟨rfl, fun _ => rfl, rfl⟩

end Sys2Proof.Machine

/-! Who writes memory (spec/20_memory.md rules R67, R70, R81): the host's keyboard writes, at the keyboard cell, and
nothing else but a reset. -/

namespace Sys2Proof.Machine

/-- A keyboard write keeps the canonical form. -/
theorem wf_kbdWrite {s : State} (v : Word) (h : Memory.wf s.mem = true) : Memory.wf (kbdWrite v s).mem = true := by
  rw [kbdWrite_mem]
  split
  · exact Memory.wf_set _ v h
  · exact h

/-- Reading after a keyboard write: the written word in the keyboard cell, the old words everywhere else. -/
theorem get_kbdWrite {s : State} (v : Word) (a : Nat) (h : Memory.wf s.mem = true)
    (hk : s.cfg.kbdAddr < s.cfg.memSize) :
    Memory.get (kbdWrite v s).mem a = if a = s.cfg.kbdAddr then v else Memory.get s.mem a := by
  rw [kbdWrite_mem, if_pos hk, Memory.get_set _ a v h]

/-- Of several keyboard writes the last one stands in the keyboard cell (R70). -/
theorem get_kbdWrites_append_singleton {s : State} (vs : List Word) (v : Word) (h : Memory.wf s.mem = true)
    (hk : s.cfg.kbdAddr < s.cfg.memSize) :
    Memory.get (kbdWrites (vs ++ [v]) s).mem s.cfg.kbdAddr = v := by
  induction vs generalizing s with
  | nil => exact (get_kbdWrite v _ h hk).trans (if_pos rfl)
  | cons w vs ih => exact ih (s := kbdWrite w s) (wf_kbdWrite w h) hk

/-- LOD below MEM_SIZE writes the addressed word to its register (R140). -/
theorem exec_lod_of_lt {rd : BitVec 4} {addr8 : BitVec 8} {s : State} (h : addr8.toNat < s.cfg.memSize) :
    exec (.lod rd addr8) s = .next (writeReg rd.toNat (Memory.get s.mem addr8.toNat) s) := by
  have hread : memRead (lodAddress addr8) s = some (Memory.get s.mem addr8.toNat) :=
    memRead_eq_some.2 (by rw [lodAddress_eq]; exact ⟨h, rfl⟩)
  rw [exec, execLod, hread]

/-- No meaning writes memory (R67). -/
theorem exec_mem {i : Instr} {s t : State} (h : exec i s = .next t) : t.mem = s.mem := by
  obtain ⟨u, hu, hframe⟩ := exec_frame i s
  obtain rfl := Host.Outcome.next.inj (hu.symm.trans h)
  rw [hframe]

/-- What an iteration leaves in memory: the old words, or those the host's writes left for the instruction. -/
theorem iteration_mem {d : EngineDraws} {s t : State} (h : iteration exec d s = .next t) :
    t.mem = s.mem ∨ t.mem = (atExecute d s).mem := by
  obtain ⟨-, ⟨-, rfl⟩ | ⟨-, -, rfl⟩ | ⟨-, -, ⟨op, -, rfl⟩ | ⟨i, v, -, hv, rfl⟩⟩⟩ := iteration_cases h
  · exact .inl (halt_mem _ s)
  · exact .inl (by rw [raise_mem, serviceInterrupt_mem])
  · exact .inr (raise_mem _ _ _ _ _)
  · exact .inr (by rw [finishIteration_mem, exec_mem hv])

/-- The interrupt service and the fetch write no memory, and the host's writes reach the keyboard cell alone. -/
theorem get_atExecute {d : EngineDraws} {s : State} {a : Nat} (h : Memory.wf s.mem = true)
    (ha : a ≠ s.cfg.kbdAddr) : Memory.get (atExecute d s).mem a = Memory.get s.mem a := by
  rw [atExecute, serviceInterrupt_eq]
  exact kbdWrites_get h ha

/-- Where the host is silent the instruction executes in the memory the iteration began with. -/
theorem atExecute_mem_of_silent {d : EngineDraws} (s : State) (h : d.kbd = []) : (atExecute d s).mem = s.mem := by
  rw [atExecute, h, kbdWrites, serviceInterrupt_mem]

/-- An iteration changes no word outside the keyboard cell. -/
theorem get_iteration {d : EngineDraws} {s t : State} {a : Nat} (h : iteration exec d s = .next t)
    (hwf : Memory.wf s.mem = true) (ha : a ≠ s.cfg.kbdAddr) : Memory.get t.mem a = Memory.get s.mem a := by
  obtain ht | ht := iteration_mem h
  · rw [ht]
  · rw [ht, get_atExecute hwf ha]

/-- An iteration with a silent host leaves memory. -/
theorem iteration_mem_of_silent {d : EngineDraws} {s t : State} (h : iteration exec d s = .next t)
    (hd : d.kbd = []) : t.mem = s.mem :=
  (iteration_mem h).elim id fun ht => ht.trans (atExecute_mem_of_silent s hd)

/-- A disk call leaves memory (R189). -/
theorem diskMove_mem {c : DiskCall} {s t : State} (h : diskMove c s = .next t) : t.mem = s.mem := by
  rw [diskMove_frame h]

/-- A move that is no reset changes no word outside the keyboard cell. -/
theorem get_moveStep {m : Move} {s t : State} {a : Nat} (h : moveStep exec m s = .next t)
    (hreset : ∀ l, m ≠ .reset l) (hwf : Memory.wf s.mem = true) (ha : a ≠ s.cfg.kbdAddr) :
    Memory.get t.mem a = Memory.get s.mem a := by
  cases m with
  | engine d => exact get_iteration h hwf ha
  | kbdWrite v =>
    obtain rfl : kbdWrites [v] s = t := Host.Outcome.next.inj h
    exact kbdWrites_get hwf ha
  | disk c => rw [diskMove_mem h]
  | reset l => exact absurd rfl (hreset l)

/-- Settles O33: the words outside the keyboard cell stay by `get_moveStep`, and an iteration with a silent host or a
disk call leaves the whole memory. -/
theorem onlyTheKeyboardCellChanges : Obligations.OnlyTheKeyboardCellChanges := by
  intro s t hwf hstep hreset
  rw [step_eq, nextMove_state] at hstep
  refine ⟨fun a ha => (get_moveStep hstep hreset hwf ha :), fun d hm hd => ?engine, fun c hm => ?disk⟩ <;>
    rw [hm] at hstep
  case engine => exact (iteration_mem_of_silent hstep hd :)
  case disk => exact (diskMove_mem hstep :)

/-- Settles O40: the last write stands in the cell, and the LOD reads it from there. -/
theorem lastKeyboardWriteWins : Obligations.LastKeyboardWriteWins := by
  intro s vs v rd addr8 hwf hk haddr
  have htrace : (kbdWrites (vs ++ [v]) s).trace = s.trace ++ (vs ++ [v]).map .kbdWrite := by rw [kbdWrites_frame]
  have hlod := exec_lod_of_lt (rd := rd) (addr8 := addr8) (s := kbdWrites (vs ++ [v]) s)
    (by rw [kbdWrites_cfg, haddr]; exact hk)
  refine ⟨htrace, _, hlod, ?_⟩
  rw [readReg_writeReg, if_pos ⟨rfl, rd.isLt⟩, haddr, get_kbdWrites_append_singleton vs v hwf hk]

/-- Settles O39: the step is the one keyboard write. -/
theorem keyboardWriteChangesOnlyItsCell : Obligations.KeyboardWriteChangesOnlyItsCell := by
  intro s s0 v hm hwf hk
  have hs0 := nextMove_eq hm
  have hget (a : Nat) : Memory.get (kbdWrite v s0).mem a = if a = s.cfg.kbdAddr then v else Memory.get s.mem a := by
    rw [hs0]
    exact get_kbdWrite v a hwf hk
  refine ⟨kbdWrite v s0, step_of_nextMove hm, ?_, fun a ha => ?_, ?_⟩
  · rw [hget, if_pos rfl]
  · rw [hget, if_neg ha]
  · rw [hs0]
    rfl

end Sys2Proof.Machine

/-! The regions of memory and the fetch's bound (spec/20_memory.md rules R63, R65, R66, R72). -/

namespace Sys2Proof.Machine

/-- Every video cell lies in the video range (R72). -/
theorem videoAddr_mem_range {c : Config} {row col : Nat} (hrow : row < c.videoRows) (hcol : col < c.videoCols) :
    c.videoBase ≤ videoAddr c row col ∧ videoAddr c row col < c.videoBase + c.videoRows * c.videoCols := by
  have hoff : c.videoCols * row + col < c.videoRows * c.videoCols := Nat.mul_add_lt_mul_of_lt_of_lt hrow hcol
  rw [videoAddr, Nat.mul_comm row]
  omega

/-- Every address in the video range is a cell's: its offset, divided by the row's length, is row and column (R72). -/
theorem exists_videoAddr_eq {c : Config} {a : Nat} (hlo : c.videoBase ≤ a)
    (hhi : a < c.videoBase + c.videoRows * c.videoCols) :
    ∃ row col, row < c.videoRows ∧ col < c.videoCols ∧ a = videoAddr c row col := by
  have hoff : a - c.videoBase < c.videoRows * c.videoCols := by omega
  have hcols : 0 < c.videoCols := Nat.pos_of_mul_pos_left (Nat.zero_lt_of_lt hoff)
  refine ⟨(a - c.videoBase) / c.videoCols, (a - c.videoBase) % c.videoCols, Nat.div_lt_of_lt_mul ?_,
    Nat.mod_lt _ hcols, ?_⟩
  · rwa [Nat.mul_comm]
  · rw [videoAddr, Nat.add_assoc, Nat.div_add_mod']
    omega

/-- The keyboard region is the keyboard cell (R65). -/
theorem region_eq_keyboard {c : Config} {a : Nat} : region c a = .keyboard ↔ a = c.kbdAddr := by
  unfold region
  split_ifs with hk <;> simp [hk]

/-- The video region is the video range, in a configuration whose keyboard cell lies outside it (R65). -/
theorem region_eq_video {c : Config} {a : Nat}
    (hk : c.kbdAddr < c.videoBase ∨ c.videoBase + c.videoRows * c.videoCols ≤ c.kbdAddr) :
    region c a = .video ↔ c.videoBase ≤ a ∧ a < c.videoBase + c.videoRows * c.videoCols := by
  unfold region
  split_ifs with hkbd hvid
  · exact iff_of_false nofun (by omega)
  · exact iff_of_true rfl hvid
  · exact iff_of_false nofun hvid
  · exact iff_of_false nofun hvid

/-- The host's one right to write is the keyboard region (R66). -/
theorem hostMayWrite_eq_true {r : Region} : hostMayWrite r = true ↔ r = .keyboard := by
  cases r <;> decide

/-- Settles O41: in a legal configuration the video range holds no keyboard cell and ends within memory. -/
theorem regionsFixTheHostsRights : Obligations.RegionsFixTheHostsRights := by
  intro c a hc
  obtain ⟨-, -, -, -, -, hvideo, hkbd, -⟩ := configLegal_iff.1 hc
  refine ⟨(region_eq_video hkbd).trans ⟨fun ⟨hlo, hhi⟩ => ?_, ?_⟩,
    hostMayWrite_eq_true.trans region_eq_keyboard⟩
  · obtain ⟨row, col, hrow, hcol, ha⟩ := exists_videoAddr_eq hlo hhi
    exact ⟨row, col, hrow, hcol, ha, by omega⟩
  · rintro ⟨row, col, hrow, hcol, rfl, -⟩
    exact videoAddr_mem_range hrow hcol

/-- Settles O43: a cell of a legal configuration lies below MEM_SIZE, where MemRead answers the stored word. -/
theorem videoReadReturnsTheStoredWord : Obligations.VideoReadReturnsTheStoredWord := by
  intro s row col hc hrow hcol
  obtain ⟨-, -, -, -, -, hvideo, -, -⟩ := configLegal_iff.1 hc
  obtain ⟨-, hhi⟩ := videoAddr_mem_range hrow hcol
  rw [videoWord, if_pos ⟨hrow, hcol⟩]
  exact memRead_eq_some.2 ⟨by omega, rfl⟩

/-- A fetch at or past MEM_SIZE raises AddressingFault at the pc (R123). -/
theorem fetchAndExecute_out_of_range {ex : Instr → State → Answer} {d : EngineDraws} {s : State}
    (h : s.cfg.memSize ≤ s.pc) :
    fetchAndExecute ex d s = .next (raise .addressing s.pc none (some s.pc) s) := by
  rw [fetchAndExecute, fetch_eq_none.2 h]

/-- Settles O18: the interrupt is serviced, and the fetch then raises the fault. -/
theorem fetchOutOfRangeTakesAddressingFault : Obligations.FetchOutOfRangeTakesAddressingFault := by
  intro s s0 d hrun hout
  have hs0 := nextMove_eq hrun.1
  have hout0 : (serviceInterrupt s0).cfg.memSize ≤ (serviceInterrupt s0).pc := by
    rw [serviceInterrupt_cfg, serviceInterrupt_pc, hs0]
    exact hout
  rw [step_of_runsIteration hrun, fetchAndExecute_out_of_range hout0, serviceInterrupt_eq, hs0]
  rfl

end Sys2Proof.Machine

/-! The encoding (spec/30_encoding.md rules R101 to R110): what `decode` answers for each opcode, the fields of the
encoder's words, and the masks of the opcode map as division by a power of two. -/

namespace Sys2Proof

/-- The opcode test of `decode` in numbers. -/
theorem opField_eq_iff {w : Word} {op : BitVec 4} : opField w = op ↔ w.toNat / 4096 = op.toNat := by
  rw [← BitVec.toNat_inj, opField_toNat]

theorem decode_of_opcode_lod {w : Word} (h : w.toNat / 4096 = 0x1) :
    decode w = .instr (.lod (rdField w) (addr8Field w)) := by
  simp [decode, opField_eq_iff, h]

theorem decode_of_opcode_add {w : Word} (h : w.toNat / 4096 = 0x2) :
    decode w = .instr (.add (w.toNat / 256 % 16) (w.toNat / 16 % 16)) := by
  simp [decode, opField_eq_iff, h, rdField_toNat, rsField_toNat]

theorem decode_of_opcode_jmp {w : Word} (h : w.toNat / 4096 = 0x4) : decode w = .instr (.jmp (addr12Field w)) := by
  simp [decode, opField_eq_iff, h]

theorem decode_of_opcode_hlt {w : Word} (h : w.toNat / 4096 = 0xF) : decode w = .instr .hlt := by
  simp [decode, opField_eq_iff, h]

theorem decode_of_opcode_illegal {w : Word} (h : w.toNat / 4096 ∉ [0x1, 0x2, 0x4, 0xF]) :
    decode w = .illegal (opField w) := by
  simp only [List.mem_cons, List.not_mem_nil, or_false, not_or] at h
  simp [decode, opField_eq_iff, h]

/-- All that `decode` can answer, by the opcode of the word (R104, R105, R108). -/
theorem decode_cases (w : Word) :
    (w.toNat / 4096 = 0x1 ∧ decode w = .instr (.lod (rdField w) (addr8Field w))) ∨
    (w.toNat / 4096 = 0x2 ∧ decode w = .instr (.add (w.toNat / 256 % 16) (w.toNat / 16 % 16))) ∨
    (w.toNat / 4096 = 0x4 ∧ decode w = .instr (.jmp (addr12Field w))) ∨
    (w.toNat / 4096 = 0xF ∧ decode w = .instr .hlt) ∨
    (w.toNat / 4096 ∉ [0x1, 0x2, 0x4, 0xF] ∧ decode w = .illegal (opField w)) := by
  by_cases hrow : w.toNat / 4096 ∈ [0x1, 0x2, 0x4, 0xF]
  · simp only [List.mem_cons, List.not_mem_nil, or_false] at hrow
    obtain h | h | h | h := hrow
    · exact .inl ⟨h, decode_of_opcode_lod h⟩
    · exact .inr (.inl ⟨h, decode_of_opcode_add h⟩)
    · exact .inr (.inr (.inl ⟨h, decode_of_opcode_jmp h⟩))
    · exact .inr (.inr (.inr (.inl ⟨h, decode_of_opcode_hlt h⟩)))
  · exact .inr (.inr (.inr (.inr ⟨hrow, decode_of_opcode_illegal hrow⟩)))

/-! The encoder's words as numbers (R102, R110). -/

theorem encode_lod_toNat (rd : BitVec 4) (addr8 : BitVec 8) :
    (encode (.lod rd addr8)).toNat = 0x1000 + rd.toNat * 256 + addr8.toNat := by
  simp only [encode, append_toNat, BitVec.toNat_ofNat]
  omega

theorem encode_add_toNat (rd rs : Nat) :
    (encode (.add rd rs)).toNat = 0x2000 + rd % 16 * 256 + rs % 16 * 16 := by
  simp only [encode, append_toNat, BitVec.toNat_ofNat]
  omega

theorem encode_jmp_toNat (addr12 : BitVec 12) : (encode (.jmp addr12)).toNat = 0x4000 + addr12.toNat := by
  simp only [encode, append_toNat, BitVec.toNat_ofNat]
  omega

/-! The fields of the encoder's words are the operands. -/

theorem rdField_encode_lod (rd : BitVec 4) (addr8 : BitVec 8) : rdField (encode (.lod rd addr8)) = rd := by
  apply BitVec.eq_of_toNat_eq
  rw [rdField_toNat, encode_lod_toNat]
  omega

theorem addr8Field_encode_lod (rd : BitVec 4) (addr8 : BitVec 8) : addr8Field (encode (.lod rd addr8)) = addr8 := by
  apply BitVec.eq_of_toNat_eq
  rw [addr8Field_toNat, encode_lod_toNat]
  omega

theorem addr12Field_encode_jmp (addr12 : BitVec 12) : addr12Field (encode (.jmp addr12)) = addr12 := by
  apply BitVec.eq_of_toNat_eq
  rw [addr12Field_toNat, encode_jmp_toNat]
  omega

/-- Settles O1: the word's opcode is its row's, and the fields that row reads are the operands; ADD's indices fit
their fields because the instruction is well-formed. -/
theorem decodeOfEncodeIsTheInstruction : Obligations.DecodeOfEncodeIsTheInstruction := by
  intro i hi
  cases i with
  | lod rd addr8 =>
    rw [decode_of_opcode_lod (Laws.OpcodeRow.lod rd addr8), rdField_encode_lod, addr8Field_encode_lod]
  | add rd rs =>
    obtain ⟨hrd, hrs⟩ : rd < 16 ∧ rs < 16 := by simpa [WellFormed] using hi
    have hrdField : (encode (.add rd rs)).toNat / 256 % 16 = rd := by rw [encode_add_toNat]; omega
    have hrsField : (encode (.add rd rs)).toNat / 16 % 16 = rs := by rw [encode_add_toNat]; omega
    rw [decode_of_opcode_add (Laws.OpcodeRow.add rd rs), hrdField, hrsField]
  | jmp addr12 => rw [decode_of_opcode_jmp (Laws.OpcodeRow.jmp addr12), addr12Field_encode_jmp]
  | hlt => exact decode_of_opcode_hlt Laws.OpcodeRow.hlt

/-- Settles O2: one decode equation for each opcode, with the fields read as numbers. -/
theorem decodeReadsTheFormatFields : Obligations.DecodeReadsTheFormatFields := by
  refine fun w => ⟨fun h => ?lod, decode_of_opcode_add, fun h => ?jmp, decode_of_opcode_hlt, fun h => ?illegal⟩
  case lod =>
    refine ⟨rdField w, addr8Field w, decode_of_opcode_lod h, rdField_toNat w, ?_⟩
    rw [Machine.lodAddress_eq, addr8Field_toNat]
  case jmp =>
    refine ⟨addr12Field w, decode_of_opcode_jmp h, ?_⟩
    rw [Machine.jmpTarget_eq, addr12Field_toNat]
  case illegal => exact ⟨opField w, decode_of_opcode_illegal h⟩

/-! The masks of the opcode map (R104, R106). -/

/-- A mask that clears the low `k` bits rounds the number down to a multiple of `2 ^ k`. -/
theorem and_highMask_toNat (w : Word) (k : Nat) :
    (w &&& BitVec.allOnes 16 <<< k).toNat = w.toNat / 2 ^ k * 2 ^ k := by
  have hle : w.toNat / 2 ^ k * 2 ^ k < 2 ^ 16 := (Nat.div_mul_le_self _ _).trans_lt w.isLt
  rw [← BitVec.shiftLeft_ushiftRight, BitVec.toNat_shiftLeft, BitVec.toNat_ushiftRight, Nat.shiftRight_eq_div_pow,
    Nat.shiftLeft_eq, Nat.mod_eq_of_lt hle]

theorem and_F000_toNat (w : Word) : (w &&& 0xF000).toNat = w.toNat / 4096 * 4096 := and_highMask_toNat w 12

theorem and_FFF0_toNat (w : Word) : (w &&& 0xFFF0).toNat = w.toNat / 16 * 16 := and_highMask_toNat w 4

/-- The test under the opcode mask compares bits 15:12 alone. -/
theorem and_F000_eq_iff {w m : Word} : w &&& 0xF000 = m ↔ w.toNat / 4096 * 4096 = m.toNat := by
  rw [← BitVec.toNat_inj, and_F000_toNat]

/-- A multiple of `2 ^ k` and a number below `2 ^ k` have no bit in common. -/
theorem div_mul_or_mod (a b k : Nat) : a / 2 ^ k * 2 ^ k ||| b % 2 ^ k = a / 2 ^ k * 2 ^ k + b % 2 ^ k := by
  rw [← Nat.shiftLeft_eq, Nat.shiftLeft_add_eq_or_of_lt (Nat.mod_lt _ (Nat.two_pow_pos k))]

/-- A word with its bits 3:0 taken from another. -/
theorem replaceLow4_toNat (w v : Word) : (w &&& 0xFFF0 ||| v &&& 0x000F).toNat = w.toNat / 16 * 16 + v.toNat % 16 := by
  have hv : (v &&& 0x000F).toNat = v.toNat % 16 := Nat.and_two_pow_sub_one_eq_mod v.toNat 4
  rw [BitVec.toNat_or, and_FFF0_toNat, hv]
  exact div_mul_or_mod w.toNat v.toNat 4

/-- A word with its bits 11:0 taken from another. -/
theorem replaceLow12_toNat (w v : Word) :
    (w &&& 0xF000 ||| v &&& 0x0FFF).toNat = w.toNat / 4096 * 4096 + v.toNat % 4096 := by
  have hv : (v &&& 0x0FFF).toNat = v.toNat % 4096 := Nat.and_two_pow_sub_one_eq_mod v.toNat 12
  rw [BitVec.toNat_or, and_F000_toNat, hv]
  exact div_mul_or_mod w.toNat v.toNat 12

/-- Settles O3: the mask keeps bits 15:12, on which `decode_cases` splits, so each of its cases answers all five
questions at once. -/
theorem opcodeRowsMatchUnderTheMask : Obligations.OpcodeRowsMatchUnderTheMask := by
  intro w
  simp only [List.mem_cons, List.not_mem_nil, or_false, and_F000_eq_iff]
  obtain ⟨hop, hd⟩ | ⟨hop, hd⟩ | ⟨hop, hd⟩ | ⟨hop, hd⟩ | ⟨hop, hd⟩ := decode_cases w
  · simp [hop, hd]
  · simp [hop, hd]
  · simp [hop, hd]
  · simp [hop, hd]
  · simp only [List.mem_cons, List.not_mem_nil, or_false, not_or] at hop
    simp [hd]
    omega

/-- Settles O4: the opcode of such a word, and for ADD its two indices, do not depend on the replaced bits. -/
theorem ignoredBitsTakeNoPart : Obligations.IgnoredBitsTakeNoPart := by
  refine fun w v => ⟨fun h => ?add, fun h => ?hlt⟩
  case add =>
    have hmask : w.toNat / 4096 * 4096 = 0x2000 := and_F000_eq_iff.1 h
    have hop : w.toNat / 4096 = 0x2 := by omega
    have hlow := replaceLow4_toNat w v
    rw [decode_of_opcode_add hop, decode_of_opcode_add (by omega)]
    congr 2 <;> omega
  case hlt =>
    have hmask : w.toNat / 4096 * 4096 = 0xF000 := and_F000_eq_iff.1 h
    have hop : w.toNat / 4096 = 0xF := by omega
    have hlow := replaceLow12_toNat w v
    rw [decode_of_opcode_hlt hop, decode_of_opcode_hlt (by omega)]

/-! Encoding what a word of each row decodes to (R110). -/

theorem encode_lod_fields {w : Word} (h : w.toNat / 4096 = 0x1) : encode (.lod (rdField w) (addr8Field w)) = w := by
  apply BitVec.eq_of_toNat_eq
  rw [encode_lod_toNat, rdField_toNat, addr8Field_toNat]
  omega

theorem encode_add_fields {w : Word} (h : w.toNat / 4096 = 0x2) :
    encode (.add (w.toNat / 256 % 16) (w.toNat / 16 % 16)) = w &&& 0xFFF0 := by
  apply BitVec.eq_of_toNat_eq
  rw [encode_add_toNat, and_FFF0_toNat]
  omega

theorem encode_jmp_fields {w : Word} (h : w.toNat / 4096 = 0x4) : encode (.jmp (addr12Field w)) = w := by
  apply BitVec.eq_of_toNat_eq
  rw [encode_jmp_toNat, addr12Field_toNat]
  omega

theorem encode_hlt_of_opcode {w : Word} (h : w.toNat / 4096 = 0xF) : encode .hlt = w &&& 0xF000 :=
  (and_F000_eq_iff.2 (by rw [h]; rfl)).symm

/-- Settles O5: `decode_cases` names the instruction, whose fields put the word together again up to its ignored
bits. -/
theorem encodeOfDecodeClearsTheIgnoredBits : Obligations.EncodeOfDecodeClearsTheIgnoredBits := by
  intro w i hi
  obtain ⟨hop, hd⟩ | ⟨hop, hd⟩ | ⟨hop, hd⟩ | ⟨hop, hd⟩ | ⟨-, hd⟩ := decode_cases w <;> rw [hd] at hi <;> cases hi
  · exact ⟨rfl, encode_lod_fields hop⟩
  · exact ⟨by simp [WellFormed, Nat.mod_lt], encode_add_fields hop⟩
  · exact ⟨rfl, encode_jmp_fields hop⟩
  · exact ⟨rfl, encode_hlt_of_opcode hop⟩

/-- Settles O6: the seven words of the table, each evaluated. -/
theorem sampleWordsDecodeAsTabled : Obligations.SampleWordsDecodeAsTabled := by
  unfold Obligations.SampleWordsDecodeAsTabled
  decide

end Sys2Proof

/-! The iteration (spec/40_cycle.md rules R120 to R133, spec/60_exceptions.md rules R211 to R216, R233, R234): how an
iteration can end, and what it has done to the timer's state and the trace by then. -/

namespace Sys2Proof.Machine

/-- A step whose next move is an iteration of a running engine is that iteration, in the state but for the list of
moves. -/
theorem iteration_of_runsIteration {s s0 : State} {d : EngineDraws} (h : runsIteration s d s0) :
    step s = iteration exec d { s with inputs := s0.inputs } := by
  rw [step_of_nextMove h.1, ← nextMove_eq h.1]
  rfl

/-- Every fault kind's status is a fault (R210). -/
theorem FaultKind.status_isFault (k : FaultKind) : k.status.isFault = true := by cases k <;> rfl

theorem FaultKind.status_ne_running (k : FaultKind) : k.status ≠ .running := by cases k <;> decide

/-- How an iteration that was not quit ends (R120, R123, R124): the fetch faults; or, past the fetch, the decoding or
the meaning faults, the run halts, or it goes on through the timer to Frame, with no more than the registers and the pc
written. -/
theorem iteration_outcomes {d : EngineDraws} {s t : State} (h : iteration exec d s = .next t)
    (hclear : d.poll = .clear) :
    (s.cfg.memSize ≤ s.pc ∧ t = raise .addressing s.pc none (some s.pc) (serviceInterrupt s)) ∨
    (s.pc < s.cfg.memSize ∧
      ((∃ k a, t = raise k s.pc (some (Memory.get s.mem s.pc)) a (atExecute d s)) ∨
       t = halt .halted (atExecute d s) ∨
       ∃ regs pc, t = emit .frame (timerTick d.fired { atExecute d s with regs := regs, pc := pc }))) := by
  obtain ⟨hrun, ⟨hquit, -⟩ | ⟨-, hout, rfl⟩ | ⟨-, hin, hfetched⟩⟩ := iteration_cases h
  · exact absurd (hclear.symm.trans hquit) nofun
  · exact .inl ⟨hout, rfl⟩
  · refine .inr ⟨hin, ?_⟩
    obtain ⟨op, -, rfl⟩ | ⟨i, v, -, hv, rfl⟩ := hfetched
    · exact .inl ⟨_, _, rfl⟩
    · have hrun' : (atExecute d s).status = .running := (atExecute_status d s).trans hrun
      obtain ⟨r, w, e⟩ | ⟨n, e⟩ | e | ⟨k, a, e⟩ := exec_cases i (atExecute d s) <;>
        obtain rfl := Host.Outcome.next.inj (e.symm.trans hv)
      · exact .inr (.inr ⟨_, _, finishIteration_running hrun'⟩)
      · exact .inr (.inr ⟨_, _, finishIteration_running hrun'⟩)
      · exact .inr (.inl (finishIteration_stopped nofun))
      · rw [finishIteration_stopped k.status_ne_running, atExecute_fetchAddr, atExecute_ir]
        exact .inl ⟨k, a, rfl⟩

/-! What an iteration has done to the timer's state and the trace before step 6. -/

/-- `u` is a state that an iteration begun in `s` reaches after the interrupt service (R122) and before the timer
(R125): the timer has not run, no Frame is emitted, and IrqNotify is emitted where an interrupt was pending. -/
structure Serviced (s u : State) : Prop where
  cfg : u.cfg = s.cfg
  tick : u.tick = s.tick
  draws : u.draws = s.draws
  pending : u.pending = false
  irqNotify : u.trace.count .irqNotify = s.trace.count .irqNotify + if s.pending then 1 else 0
  frame : u.trace.count .frame = s.trace.count .frame

theorem serviced_serviceInterrupt (s : State) : Serviced s (serviceInterrupt s) := by
  rw [serviceInterrupt_eq]
  refine ⟨rfl, rfl, rfl, rfl, ?_, ?_⟩ <;> cases s.pending <;> simp

/-- The events of the host's keyboard writes are no others. -/
theorem count_map_kbdWrite {e : Event} (h : ∀ v, e ≠ .kbdWrite v) (vs : List Word) :
    (vs.map Event.kbdWrite).count e = 0 :=
  List.count_eq_zero.2 fun he => by
    obtain ⟨v, -, hv⟩ := List.mem_map.1 he
    exact h v hv.symm

theorem serviced_atExecute (d : EngineDraws) (s : State) : Serviced s (atExecute d s) := by
  have hs := serviced_serviceInterrupt s
  have hcount {e : Event} (he : ∀ v, e ≠ .kbdWrite v) :
      (atExecute d s).trace.count e = (serviceInterrupt s).trace.count e := by
    rw [atExecute_trace, serviceInterrupt_eq, List.count_append, count_map_kbdWrite he, Nat.add_zero]
  exact ⟨atExecute_cfg d s, atExecute_tick d s, atExecute_draws d s, atExecute_pending d s,
    (hcount (by nofun)).trans hs.irqNotify, (hcount (by nofun)).trans hs.frame⟩

/-- Taking a fault emits Stop alone. -/
theorem serviced_raise {s u : State} (k : FaultKind) (fa : Nat) (w : Option Word) (a : Option Nat)
    (h : Serviced s u) : Serviced s (raise k fa w a u) :=
  { h with irqNotify := by simp [h.irqNotify], frame := by simp [h.frame] }

/-- Halting emits Stop alone. -/
theorem serviced_halt {s u : State} (st : Status) (h : Serviced s u) : Serviced s (halt st u) :=
  { h with irqNotify := by simp [h.irqNotify], frame := by simp [h.frame] }

/-- How an iteration that was not quit ends, as the timer and the trace see it. -/
theorem iteration_serviced {d : EngineDraws} {s t : State} (h : iteration exec d s = .next t)
    (hclear : d.poll = .clear) :
    ∃ u, Serviced s u ∧ ((∃ k fa w a, t = raise k fa w a u) ∨ t = halt .halted u ∨
      (u.status = .running ∧ t = emit .frame (timerTick d.fired u))) := by
  have hrun := (iteration_cases h).1
  obtain ⟨-, rfl⟩ | ⟨-, ⟨k, a, rfl⟩ | rfl | ⟨regs, pc, rfl⟩⟩ := iteration_outcomes h hclear
  · exact ⟨_, serviced_serviceInterrupt s, .inl ⟨_, _, _, _, rfl⟩⟩
  · exact ⟨_, serviced_atExecute d s, .inl ⟨_, _, _, _, rfl⟩⟩
  · exact ⟨_, serviced_atExecute d s, .inr (.inl rfl)⟩
  · exact ⟨{ atExecute d s with regs := regs, pc := pc }, { serviced_atExecute d s with },
      .inr (.inr ⟨(atExecute_status d s).trans hrun, rfl⟩)⟩

/-- The tick timer below its threshold counts up (R230). -/
theorem timerTick_ticks_below {s : State} {n : Nat} (fired : Option Bool) (ht : s.cfg.timer = .ticks n)
    (hn : s.tick + 1 < n) : timerTick fired s = { s with tick := s.tick + 1 } := by
  simp only [timerTick, ht, if_neg (Nat.not_le.2 hn)]

/-- The tick timer at its threshold sets the flag and starts again (R230). -/
theorem timerTick_ticks_reached {s : State} {n : Nat} (fired : Option Bool) (ht : s.cfg.timer = .ticks n)
    (hn : n ≤ s.tick + 1) : timerTick fired s = { s with tick := 0, pending := true } := by
  simp only [timerTick, ht, if_pos hn]

/-- The advance of the tick timer with no interrupt pending (R230). -/
theorem timerTick_ticks_of_not_pending {s : State} {n : Nat} (fired : Option Bool) (ht : s.cfg.timer = .ticks n)
    (hp : s.pending = false) :
    (timerTick fired s).tick = (if s.tick + 1 < n then s.tick + 1 else 0) ∧
      ((timerTick fired s).pending = true ↔ n ≤ s.tick + 1) ∧ (timerTick fired s).draws = s.draws := by
  by_cases hn : s.tick + 1 < n
  · rw [timerTick_ticks_below fired ht hn, if_pos hn]
    exact ⟨rfl, by simp [hp, hn], rfl⟩
  · rw [timerTick_ticks_reached fired ht (Nat.not_lt.1 hn), if_neg hn]
    exact ⟨rfl, by simp [Nat.not_lt.1 hn], rfl⟩

/-- The advance of the wall-clock timer with no interrupt pending (R231). -/
theorem timerTick_wallClock_of_not_pending {s : State} (fired : Option Bool) (hw : s.cfg.timer = .wallClock)
    (hp : s.pending = false) :
    (timerTick fired s).pending = fired.getD (Config.freeFired s.draws) ∧
      (timerTick fired s).draws = s.draws + 1 := by
  cases hf : fired.getD (Config.freeFired s.draws) with
  | true => rw [timerTick_wallClock_fired hw hf]; exact ⟨rfl, rfl⟩
  | false => rw [timerTick_wallClock_silent hw hf]; exact ⟨hp, rfl⟩

/-- Settles O22: `iteration_serviced` names the three endings; a fault and a halt only emit Stop, and the third is the
timer's advance and Frame. -/
theorem stoppedIterationSkipsTimerAndFrame : Obligations.StoppedIterationSkipsTimerAndFrame := by
  intro s s0 t d hrun hstep
  rw [iteration_of_runsIteration hrun] at hstep
  obtain ⟨u, hu, hend⟩ := iteration_serviced hstep hrun.2.2
  replace hu : Serviced s u := { hu with }
  obtain ⟨k, fa, w, a, rfl⟩ | rfl | ⟨hurun, rfl⟩ := hend
  · have ht := serviced_raise k fa w a hu
    refine ⟨ht.irqNotify, fun _ => ⟨ht.tick, ht.draws, ht.pending, ht.frame, fun _ => by simp, fun hf => ?_⟩,
      fun hr => absurd hr k.status_ne_running⟩
    exact absurd (k.status_isFault.symm.trans hf) nofun
  · have ht := serviced_halt .halted hu
    exact ⟨ht.irqNotify, fun _ => ⟨ht.tick, ht.draws, ht.pending, ht.frame, nofun, fun _ => by simp⟩, nofun⟩
  · refine ⟨by simp [hu.irqNotify], fun hs => absurd hurun (by simpa using hs), fun _ => ?_⟩
    refine ⟨by simp [hu.frame], by simp, fun n hn => ?_, fun hw => ?_⟩
    · rw [← hu.cfg] at hn
      rw [← hu.tick, ← hu.draws]
      exact timerTick_ticks_of_not_pending d.fired hn hu.pending
    · rw [← hu.cfg] at hw
      rw [← hu.draws]
      exact timerTick_wallClock_of_not_pending d.fired hw hu.pending

/-- Settles O23: of the endings `iteration_outcomes` names, the two that are faults are a `raise` at the fetch and one
past it. -/
theorem faultsArePrecise : Obligations.FaultsArePrecise := by
  intro s s0 t d hrun hstep hfault
  rw [iteration_of_runsIteration hrun] at hstep
  obtain ⟨hout, rfl⟩ | ⟨hin, ⟨k, a, rfl⟩ | rfl | ⟨regs, pc, rfl⟩⟩ := iteration_outcomes hstep hrun.2.2
  · have hpc : ¬ s.pc < s.cfg.memSize := Nat.not_lt.2 hout
    rw [serviceInterrupt_eq, if_neg hpc, if_neg hpc]
    exact ⟨rfl, rfl, rfl, rfl, fun _ => rfl, rfl, _, rfl, rfl, rfl, rfl⟩
  · rw [if_pos hin, if_pos hin]
    exact ⟨by simp, by simp, by simp, by simp, fun hk => atExecute_mem_of_silent _ hk, by simp, _, rfl, rfl, rfl, rfl⟩
  · exact absurd hfault nofun
  · exact absurd hfault (by simp [hrun.2.1, Status.isFault])

/-- A serviced interrupt is not serviced again. -/
theorem serviceInterrupt_idem (s : State) : serviceInterrupt (serviceInterrupt s) = serviceInterrupt s := by
  rw [serviceInterrupt_eq (serviceInterrupt s), serviceInterrupt_eq s]
  rfl

/-- The interrupt service leaves the moves to come. -/
theorem nextMove_serviceInterrupt (s : State) :
    nextMove (serviceInterrupt s) = ((nextMove s).1, serviceInterrupt (nextMove s).2) := by
  rw [serviceInterrupt_eq, serviceInterrupt_eq, nextMove_state s]
  cases hi : s.inputs <;> simp only [nextMove, hi]

/-- An iteration that runs would run after the interrupt service as well. -/
theorem runsIteration_serviceInterrupt {s s0 : State} {d : EngineDraws} (h : runsIteration s d s0) :
    runsIteration (serviceInterrupt s) d (serviceInterrupt s0) := by
  obtain ⟨hm, hrun, hclear⟩ := h
  exact ⟨by rw [nextMove_serviceInterrupt, hm], (serviceInterrupt_status s).trans hrun, hclear⟩

/-- Settles O21: the state with the interrupt serviced runs the same iteration, whose own service then does nothing. -/
theorem pendingInterruptIsServicedFirst : Obligations.PendingInterruptIsServicedFirst := by
  intro s s0 d hrun hp
  have hserviced : { s with pending := false, trace := s.trace ++ [.irqNotify] } = serviceInterrupt s := by
    rw [serviceInterrupt_eq, if_pos hp]
  rw [hserviced, step_of_runsIteration hrun, step_of_runsIteration (runsIteration_serviceInterrupt hrun),
    serviceInterrupt_idem]

/-- Settles O25: an iteration runs only while the status is RUNNING, and the host's and the disk's moves leave the
engine. -/
theorem onlyResetLeavesAStoppedStatus : Obligations.OnlyResetLeavesAStoppedStatus := by
  intro s t hstopped hstep hreset
  rw [step_eq, nextMove_state] at hstep
  cases hm : (nextMove s).1 with
  | engine d =>
    rw [hm] at hstep
    exact absurd (iteration_cases hstep).1 hstopped
  | kbdWrite v =>
    rw [hm] at hstep
    obtain rfl := Host.Outcome.next.inj hstep
    exact ⟨rfl, rfl, rfl, rfl, rfl, rfl⟩
  | disk c =>
    rw [hm] at hstep
    rw [diskMove_frame hstep]
    exact ⟨rfl, rfl, rfl, rfl, rfl, rfl⟩
  | reset l => exact absurd hm (hreset l)

/-- A decoded instruction is executed, and the iteration ended after it (R124). -/
theorem executeFetched_of_instr {i : Instr} {s t : State} (fired : Option Bool) (hd : decode s.ir = .instr i)
    (ht : exec i s = .next t) : executeFetched exec fired s = .next (finishIteration fired t) := by
  simp only [executeFetched, hd, ht]

/-- An unknown opcode takes DecodeFault (R164). -/
theorem executeFetched_of_illegal {op : BitVec 4} {s : State} (ex : Instr → State → Answer) (fired : Option Bool)
    (hd : decode s.ir = .illegal op) :
    executeFetched ex fired s = .next (raise .decode s.fetchAddr (some s.ir) none s) := by
  simp only [executeFetched, hd]

/-- Where the host is silent the instruction executes in the state with the interrupt serviced and the word fetched. -/
theorem atExecute_of_silent {d : EngineDraws} (s : State) (h : d.kbd = []) :
    atExecute d s =
      { serviceInterrupt s with fetchAddr := s.pc, ir := Memory.get s.mem s.pc, pc := s.pc + 1 } := by
  rw [atExecute, h, kbdWrites]

/-- Settles O15: the fetched word is decoded and executed in `atExecute`, and `finishIteration` is the timer and Frame
exactly where the run goes on. -/
theorem stepRunsTheDecodedInstruction : Obligations.StepRunsTheDecodedInstruction := by
  intro s s0 d i hrun hin hd
  have hs0 := nextMove_eq hrun.1
  obtain ⟨t, ht, -⟩ := exec_frame i (atExecute d s0)
  have hstep : step s = .next (finishIteration d.fired t) := by
    rw [step_of_fetched hrun hin]
    exact executeFetched_of_instr d.fired (by rw [atExecute_ir, hs0]; exact hd) ht
  refine ⟨t, ht, fun hgo => by rw [hstep, finishIteration_running hgo],
    fun hstop => by rw [hstep, finishIteration_stopped hstop], ?_⟩
  rw [atExecute_regs, atExecute_pc, atExecute_fetchAddr, atExecute_ir, atExecute_pending]
  refine ⟨by rw [atExecute, serviceInterrupt_eq, hs0], ?_⟩
  rw [hs0]
  exact ⟨rfl, rfl, rfl, rfl, rfl, fun hk => atExecute_mem_of_silent _ hk⟩

/-- Settles O19: the fetched word is latched, and decoding it raises the fault. -/
theorem unknownOpcodeTakesDecodeFault : Obligations.UnknownOpcodeTakesDecodeFault := by
  intro s s0 d op hrun hk hin hd
  have hs0 := nextMove_eq hrun.1
  have hd' : decode (atExecute d s0).ir = .illegal op := by rw [atExecute_ir, hs0]; exact hd
  rw [step_of_fetched hrun hin, executeFetched_of_illegal exec d.fired hd', atExecute_of_silent s0 hk,
    serviceInterrupt_eq, hs0]
  rfl

/-- A poll that sees the quit signal ends the run (R121). -/
theorem iteration_of_quit {ex : Instr → State → Answer} {d : EngineDraws} {s : State} (hrun : s.status = .running)
    (hquit : d.poll = .quit) : iteration ex d s = .next (halt .quit s) := by
  simp only [iteration, if_pos hrun, hquit]

/-- A poll that never returns is a hang (R132). -/
theorem iteration_of_never {ex : Instr → State → Answer} {d : EngineDraws} {s : State} (hrun : s.status = .running)
    (hnever : d.poll = .never) : iteration ex d s = .fault .pollHang := by
  simp only [iteration, if_pos hrun, hnever]

/-- Settles O20: the poll comes before everything else in the iteration, and a quit is a halt. -/
theorem quitPreemptsTheIteration : Obligations.QuitPreemptsTheIteration := by
  intro s s0 d hm hrun hquit
  have hs0 := nextMove_eq hm
  have hrun0 : s0.status = .running := by rw [hs0]; exact hrun
  rw [step_of_nextMove hm, moveStep, iteration_of_quit hrun0 hquit, hs0]
  rfl

/-- Settles O24: an iteration asks for the status first. -/
theorem stoppedMachineRunsNoIteration : Obligations.StoppedMachineRunsNoIteration := by
  intro s s0 d hm hstopped
  rw [step_of_nextMove hm, nextMove_eq hm]
  exact if_neg hstopped

/-- The commands that acquire the store are numbered 0, 1 and 2 (R183, R190). -/
theorem acquiresStore_iff {cmd : Word} : acquiresStore cmd = true ↔ cmd.toNat ≤ 2 := by
  simp only [acquiresStore, Bool.or_eq_true, decide_eq_true_eq]
  bv_omega

/-- Settles O26: the poll's hang is the iteration's first answer, and a stalled store is met only by a call that
acquires it. -/
theorem hangsAreStops : Obligations.HangsAreStops := by
  refine ⟨fun s s0 d hm hrun hnever => ?_, fun s s0 c hm hstalls => ⟨fun hcmd => ?_, fun hcmd => ?_⟩⟩
  · have hrun0 : s0.status = .running := by rw [nextMove_eq hm]; exact hrun
    rw [step_of_nextMove hm, moveStep, iteration_of_never hrun0 hnever]
  · rw [step_of_nextMove hm, moveStep, diskMove, acquiresStore_iff.2 hcmd, hstalls]
    rfl
  · have hacq : acquiresStore c.cmd = false :=
      Bool.eq_false_iff.2 fun h => absurd (acquiresStore_iff.1 h) (Nat.not_le.2 hcmd)
    rw [step_of_nextMove hm, moveStep, diskMove, hacq]
    exact ⟨_, rfl⟩

end Sys2Proof.Machine

/-! The load family (spec/41_load.md rules R140, R141), and what it has in common with ADD (R153): one register written,
or a fault taken. -/

namespace Sys2Proof.Machine

/-- A register index of 4 bits reads what was written to it (R32). -/
theorem readReg_writeReg_same (rd : BitVec 4) (v : Word) (s : State) :
    readReg rd.toNat (writeReg rd.toNat v s) = some v := by
  rw [readReg_writeReg, if_pos ⟨rfl, rd.isLt⟩]

/-- A register write leaves the other registers. -/
theorem readReg_writeReg_of_ne {r j : Nat} (v : Word) (s : State) (h : j ≠ r) :
    readReg j (writeReg r v s) = readReg j s := by
  by_contra hne
  exact h (eq_of_readReg_writeReg_ne hne).symm

/-- LOD at or past MEM_SIZE takes AddressingFault (R140). -/
theorem exec_lod_of_ge {rd : BitVec 4} {addr8 : BitVec 8} {s : State} (h : s.cfg.memSize ≤ addr8.toNat) :
    exec (.lod rd addr8) s = .next (raise .addressing s.fetchAddr (some s.ir) (some addr8.toNat) s) := by
  have hread : memRead (lodAddress addr8) s = none := memRead_eq_none.2 (by rw [lodAddress_eq]; exact h)
  rw [exec, execLod, hread, lodAddress_eq]

/-- What LOD can do: write x[rd], or take a fault. -/
theorem exec_lod_cases (rd : BitVec 4) (addr8 : BitVec 8) (s : State) :
    (∃ v, exec (.lod rd addr8) s = .next (writeReg rd.toNat v s)) ∨
      ∃ k a, exec (.lod rd addr8) s = .next (raise k s.fetchAddr (some s.ir) a s) := by
  obtain h | h := Nat.lt_or_ge addr8.toNat s.cfg.memSize
  · exact .inl ⟨_, exec_lod_of_lt h⟩
  · exact .inr ⟨_, _, exec_lod_of_ge h⟩

/-- What ADD can do: write x[rd], or take a fault. -/
theorem exec_add_cases (rd rs : Nat) (s : State) :
    (∃ v, exec (.add rd rs) s = .next (writeReg rd v s)) ∨
      ∃ k a, exec (.add rd rs) s = .next (raise k s.fetchAddr (some s.ir) a s) := by
  cases h : addOperands rd rs s with
  | none => exact .inr ⟨_, _, by rw [exec, execAdd, h]⟩
  | some operands => exact .inl ⟨_, by rw [exec, execAdd, h]⟩

/-- Settles O11: each of the two instructions writes its one register or takes a fault, and a fault writes the status,
the record and the trace alone. -/
theorem lodAndAddFrame : Obligations.LodAndAddFrame := by
  intro i r s t hi ht
  have hcases : (∃ v, exec i s = .next (writeReg r v s)) ∨
      ∃ k a, exec i s = .next (raise k s.fetchAddr (some s.ir) a s) := by
    obtain ⟨rd, addr8, rfl, rfl⟩ | ⟨rs, rfl⟩ := hi
    · exact exec_lod_cases rd addr8 s
    · exact exec_add_cases r rs s
  obtain ⟨v, hx⟩ | ⟨k, a, hx⟩ := hcases <;> obtain rfl := Host.Outcome.next.inj (hx.symm.trans ht)
  · exact ⟨fun j hj => readReg_writeReg_of_ne v s hj, fun _ => rfl, by simp, rfl⟩
  · exact ⟨fun j _ => readReg_congr (raise_regs ..), fun _ => rfl, fun _ => ⟨k.status_isFault, rfl⟩, rfl⟩

/-- A step that runs an instruction which writes one register, in an iteration without host writes: besides that
register, only the pc, the timer's state, the trace and the latches change (R141, R153). -/
theorem step_of_writeReg {s s0 : State} {d : EngineDraws} {i : Instr} {r : Nat} {v : Word}
    (hrun : runsIteration s d s0) (hk : d.kbd = []) (hin : s.pc < s.cfg.memSize)
    (hd : decode (Memory.get s.mem s.pc) = .instr i)
    (hx : exec i (atExecute d s0) = .next (writeReg r v (atExecute d s0))) :
    ∃ t, step s = .next t ∧ t.regs = (writeReg r v s).regs ∧ t = { s0 with
      regs := t.regs, pc := s.pc + 1, pending := t.pending, tick := t.tick, draws := t.draws
      trace := (if s.pending then s.trace ++ [.irqNotify] else s.trace) ++ [.frame]
      fetchAddr := s.pc, ir := Memory.get s.mem s.pc } := by
  obtain ⟨u, hu, hgo, -, hat, hregs, -⟩ := stepRunsTheDecodedInstruction s s0 d i hrun hin hd
  obtain rfl := Host.Outcome.next.inj (hx.symm.trans hu)
  have hrunning : (writeReg r v (atExecute d s0)).status = .running := by
    rw [writeReg_status, atExecute_status, nextMove_eq hrun.1]
    exact hrun.2.1
  refine ⟨_, hgo hrunning, ?_, ?_⟩
  · rw [emit_regs, timerTick_regs, writeReg_regs, writeReg_regs, hregs]
  · rw [hat, hk, kbdWrites, timerTick_frame]
    rfl

/-- Settles O16: where the host is silent, the LOD executes in the memory the iteration began with, and is then an
instruction that writes one register. -/
theorem lodStepFrame : Obligations.LodStepFrame := by
  intro s s0 d rd addr8 hrun hk hin hd haddr
  have hs0 := nextMove_eq hrun.1
  have hmem : (atExecute d s0).mem = s.mem := by rw [atExecute_mem_of_silent s0 hk, hs0]
  have hx : exec (.lod rd addr8) (atExecute d s0) =
      .next (writeReg rd.toNat (Memory.get s.mem addr8.toNat) (atExecute d s0)) := by
    rw [exec_lod_of_lt (by rw [atExecute_cfg, hs0]; exact haddr), hmem]
  obtain ⟨t, hstep, hregs, hframe⟩ := step_of_writeReg hrun hk hin hd hx
  exact ⟨t, hstep, (readReg_congr hregs).trans (readReg_writeReg_same rd _ s),
    fun i hi => (readReg_congr hregs).trans (readReg_writeReg_of_ne _ s hi), hframe⟩

/-- Settles O7: the load is a write of x[rd]. -/
theorem lodLoadsTheAddressedWord : Obligations.LodLoadsTheAddressedWord := fun rd _ s haddr =>
  ⟨_, exec_lod_of_lt haddr, readReg_writeReg_same rd _ s, fun _ hi => readReg_writeReg_of_ne _ s hi, rfl⟩

/-- Settles O8: the fault of `exec_lod_of_ge`, its fields written out. -/
theorem lodOutOfRangeTakesAddressingFault : Obligations.LodOutOfRangeTakesAddressingFault :=
  fun _ _ _ haddr => exec_lod_of_ge haddr

end Sys2Proof.Machine

/-! The arithmetic family (spec/42_arith.md rules R150 to R153): the ALU's addition, and what ADD does where its indices
are in [0,16) and where they are not. -/

namespace Sys2Proof.Machine

/-- The ALU's sum is the sum of 16-bit words (R152). -/
theorem aluAdd_eq_add (a b : Word) : aluAdd a b = a + b := by
  rw [← BitVec.toNat_inj, aluAdd_toNat, BitVec.toNat_add]

/-- A register index in [0,16) reads what was written to it (R32). -/
theorem readReg_writeReg_of_lt {r : Nat} (v : Word) (s : State) (h : r < numRegs) :
    readReg r (writeReg r v s) = some v := by
  rw [readReg_writeReg, if_pos ⟨rfl, h⟩]

/-- ADD with both indices in [0,16) writes the sum of the operands read before the write (R150). -/
theorem exec_add_of_reads {rd rs : Nat} {a b : Word} {s : State} (ha : readReg rd s = some a)
    (hb : readReg rs s = some b) : exec (.add rd rs) s = .next (writeReg rd (aluAdd a b) s) := by
  rw [exec, execAdd, addOperands_eq_some.2 ⟨ha, hb⟩]

/-- ADD with an index past 15 takes InvalidOperandFault (R151). -/
theorem exec_add_of_ge {rd rs : Nat} {s : State} (h : numRegs ≤ rd ∨ numRegs ≤ rs) :
    exec (.add rd rs) s = .next (raise .invalidOperand s.fetchAddr (some s.ir) none s) := by
  rw [exec, execAdd, addOperands_eq_none.2 h]

/-- The indices of an ADD that was decoded are in [0,16) (R101). -/
theorem lt_numRegs_of_decode_add {w : Word} {rd rs : Nat} (h : decode w = .instr (.add rd rs)) :
    rd < numRegs ∧ rs < numRegs := by
  simpa [WellFormed] using (encodeOfDecodeClearsTheIgnoredBits w _ h).1

/-- ADD reads no memory: in a state with any other memory it does the same (R153). -/
theorem exec_add_of_mem {rd rs : Nat} {s t : State} (m : Memory) (h : exec (.add rd rs) s = .next t) :
    exec (.add rd rs) { s with mem := m } = .next { t with mem := m } := by
  by_cases hidx : numRegs ≤ rd ∨ numRegs ≤ rs
  · obtain rfl := Host.Outcome.next.inj ((exec_add_of_ge hidx).symm.trans h)
    exact exec_add_of_ge hidx
  · obtain ⟨hrd, hrs⟩ := not_or.1 hidx
    obtain ⟨a, ha⟩ := readReg_isSome s (Nat.lt_of_not_le hrd)
    obtain ⟨b, hb⟩ := readReg_isSome s (Nat.lt_of_not_le hrs)
    obtain rfl := Host.Outcome.next.inj ((exec_add_of_reads ha hb).symm.trans h)
    exact exec_add_of_reads (s := { s with mem := m }) ha hb

/-- Settles O17: the decoded indices are in range, so the ADD executes, with the registers the iteration began with, as
an instruction that writes one register. -/
theorem addStepFrame : Obligations.AddStepFrame := by
  refine ⟨?_, fun rd rs s t m ht => exec_add_of_mem m ht⟩
  intro s s0 d rd rs hrun hk hin hd
  obtain ⟨hrd, hrs⟩ := lt_numRegs_of_decode_add hd
  obtain ⟨a, ha⟩ := readReg_isSome s hrd
  obtain ⟨b, hb⟩ := readReg_isSome s hrs
  have hat : (atExecute d s0).regs = s.regs := by rw [atExecute_regs, nextMove_eq hrun.1]
  have hx : exec (.add rd rs) (atExecute d s0) = .next (writeReg rd (aluAdd a b) (atExecute d s0)) :=
    exec_add_of_reads ((readReg_congr hat).trans ha) ((readReg_congr hat).trans hb)
  obtain ⟨t, hstep, hregs, hframe⟩ := step_of_writeReg hrun hk hin hd hx
  exact ⟨a, b, aluAdd a b, t, ha, hb, hstep, (readReg_congr hregs).trans (readReg_writeReg_of_lt _ s hrd),
    aluAdd_toNat a b, fun i hi => (readReg_congr hregs).trans (readReg_writeReg_of_ne _ s hi), hframe⟩

/-- Settles O9: both operands are read, and ADD is a write of x[rd]. -/
theorem addStoresTheSumModulo65536 : Obligations.AddStoresTheSumModulo65536 := by
  intro rd rs s hrd hrs
  obtain ⟨a, ha⟩ := readReg_isSome s hrd
  obtain ⟨b, hb⟩ := readReg_isSome s hrs
  exact ⟨a, b, aluAdd a b, _, ha, hb, exec_add_of_reads ha hb, readReg_writeReg_of_lt _ s hrd,
    aluAdd_toNat a b, fun _ hi => readReg_writeReg_of_ne _ s hi, rfl⟩

/-- Settles O10: the fault of `exec_add_of_ge`, its fields written out, which no decoded ADD takes. -/
theorem addIndexOutOfRangeTakesInvalidOperandFault : Obligations.AddIndexOutOfRangeTakesInvalidOperandFault :=
  ⟨fun _ _ _ hidx => exec_add_of_ge hidx, fun _ _ _ hd => lt_numRegs_of_decode_add hd, by decide⟩

/-- Settles O14: the ALU's sum is the addition of `BitVec 16`, whose laws these are. -/
theorem aluAddLaws : Obligations.AluAddLaws := by
  intro a b c
  refine ⟨aluAdd_toNat a b, ?_, ?_, ?_⟩
  · rw [aluAdd_eq_add, aluAdd_eq_add, BitVec.add_comm]
  · simp only [aluAdd_eq_add, BitVec.add_assoc]
  · rw [aluAdd_eq_add]
    exact BitVec.add_zero a

end Sys2Proof.Machine

/-! The control family (spec/43_control.md rules R160 and R162): what JMP and HLT do in every state. -/

namespace Sys2Proof.Machine

/-- JMP sets the pc to the zero-extended field, at or past MEM_SIZE too (R160). -/
theorem exec_jmp (addr12 : BitVec 12) (s : State) : exec (.jmp addr12) s = .next (setPc addr12.toNat s) := by
  rw [exec, execJmp, jmpTarget_eq]

/-- HLT halts the engine with HALTED (R162). -/
theorem exec_hlt (s : State) : exec .hlt s = .next (halt .halted s) := by
  rw [exec, execHlt]

/-- Settles O12: the write of the pc, its field written out. -/
theorem jmpSetsThePc : Obligations.JmpSetsThePc := exec_jmp

/-- Settles O13: the halt, its fields written out. -/
theorem hltHaltsTheRun : Obligations.HltHaltsTheRun := exec_hlt

end Sys2Proof.Machine

/-! The disk controller (spec/44_disk_controller.md): the command a code runs, what each command leaves of the store,
and the disk call as a step. -/

namespace Sys2Proof.Machine

/-- Command 0 runs RESET (R183). -/
theorem diskHandle_of_reset {c : DiskCall} (h : c.cmd = 0) (d : Store) : diskHandle c d = diskReset c d := by
  rw [diskHandle, if_pos h]

/-- Command 1 runs READ (R183). -/
theorem diskHandle_of_read {c : DiskCall} (h : c.cmd = 1) (d : Store) : diskHandle c d = diskRead c d := by
  rw [diskHandle, h, if_neg (by decide), if_pos rfl]

/-- Command 2 runs WRITE (R183). -/
theorem diskHandle_of_write {c : DiskCall} (h : c.cmd = 2) (d : Store) : diskHandle c d = diskWrite c d := by
  rw [diskHandle, h, if_neg (by decide), if_neg (by decide), if_pos rfl]

/-- Any other command is unsupported (R183). -/
theorem diskHandle_of_unsupported {c : DiskCall} (h : acquiresStore c.cmd = false) (d : Store) :
    diskHandle c d = (⟨.fault .unsupportedCommand, c.bufIn⟩, d) := by
  simp only [acquiresStore, Bool.or_eq_false_iff, decide_eq_false_iff_not] at h
  obtain ⟨⟨h0, h1⟩, h2⟩ := h
  rw [diskHandle, if_neg h0, if_neg h1, if_neg h2]

/-- RESET never alters the store (R193). -/
@[simp] theorem diskReset_store (c : DiskCall) (d : Store) : (diskReset c d).2 = d := by
  unfold diskReset
  split <;> rfl

/-- RESET returns the caller's buffer (R185). -/
@[simp] theorem diskReset_bufOut (c : DiskCall) (d : Store) : (diskReset c d).1.bufOut = c.bufIn := by
  unfold diskReset
  split <;> rfl

/-- READ never alters the store (R186). -/
@[simp] theorem diskRead_store (c : DiskCall) (d : Store) : (diskRead c d).2 = d := by
  unfold diskRead
  split
  · rfl
  · split <;> rfl

/-- A READ of a store that cannot be opened is UNAVAILABLE, with any buffer (R184). -/
theorem diskRead_of_unavailable {c : DiskCall} {d : Store} (h : c.draws.unavailable = true) :
    diskRead c d = (⟨.fault .unavailable, c.draws.garbage⟩, d) := by
  rw [diskRead, if_pos h]

/-- A READ of a sector past the store's end is SHORT_READ, with any buffer (R186). -/
theorem diskRead_of_short {c : DiskCall} {d : Store} (havail : c.draws.unavailable = false)
    (h : readSector d c.sector = none) : diskRead c d = (⟨.fault .shortRead, c.draws.garbage⟩, d) := by
  rw [diskRead, havail, h]
  rfl

/-- A READ of a sector that lies in the store returns it (R186). -/
theorem diskRead_of_readSector {c : DiskCall} {d : Store} {b : Buffer} (havail : c.draws.unavailable = false)
    (h : readSector d c.sector = some b) : diskRead c d = (⟨.ok, b⟩, d) := by
  rw [diskRead, havail, h]
  rfl

/-- A READ that returned OK read its sector. -/
theorem readSector_of_diskRead_ok {c : DiskCall} {d : Store} (h : (diskRead c d).1.result = .ok) :
    readSector d c.sector = some (diskRead c d).1.bufOut := by
  cases havail : c.draws.unavailable with
  | true => rw [diskRead_of_unavailable havail] at h; cases h
  | false =>
    cases hread : readSector d c.sector with
    | none => rw [diskRead_of_short havail hread] at h; cases h
    | some b => rw [diskRead_of_readSector havail hread]

/-- Word i of a sector that was read is the store's (R186). -/
theorem readSector_getElem? {d : Store} {sector : Word} {b : Buffer} (h : readSector d sector = some b) {i : Nat}
    (hi : i < sectorSize) : b.1[i]? = d[sectorStart sector + i]? := by
  rw [readSector_words h, List.getElem?_take_of_lt hi, List.getElem?_drop]

/-- The store with the words from position k on overwritten by `ws`: what every WRITE does, whole or failed. -/
def overwriteAt (d : Store) (k : Nat) (ws : List Word) : Store :=
  d.take k ++ ws ++ d.drop (k + ws.length)

/-- An overwriting changes the words it covers, and no other. -/
theorem overwriteAt_getElem? {d : Store} {k : Nat} (ws : List Word) (i : Nat) (hk : k ≤ d.length) :
    (overwriteAt d k ws)[i]? = if k ≤ i ∧ i < k + ws.length then ws[i - k]? else d[i]? := by
  have htake : (d.take k).length = k := List.length_take_of_le hk
  have hcover : (d.take k ++ ws).length = k + ws.length := by rw [List.length_append, htake]
  rw [overwriteAt]
  obtain hbefore | hcovered | hbehind : i < k ∨ (k ≤ i ∧ i < k + ws.length) ∨ k + ws.length ≤ i := by omega
  · rw [if_neg (by omega), List.getElem?_append_left (by omega), List.getElem?_append_left (by omega),
      List.getElem?_take_of_lt hbefore]
  · rw [if_pos hcovered, List.getElem?_append_left (by omega), List.getElem?_append_right (by omega), htake]
  · rw [if_neg (by omega), List.getElem?_append_right (by omega), List.getElem?_drop, hcover,
      Nat.add_sub_cancel' hbehind]

/-- A WRITE that returns OK overwrites the gap past the old end and the sector (R187). -/
theorem writeSector_eq_overwriteAt (d : Store) (sector : Word) (b : Buffer) :
    writeSector d sector b = overwriteAt d (min d.length (sectorStart sector))
      (List.replicate (sectorStart sector - d.length) 0 ++ b.1) := by
  have hend : min d.length (sectorStart sector) + (sectorStart sector - d.length + sectorSize) =
      sectorStart sector + sectorSize := by omega
  rw [writeSector, overwriteAt, List.length_append, List.length_replicate, b.2, hend, Nat.min_comm,
    ← List.take_eq_take_min, List.append_assoc (d.take _)]

/-- Every word of the store after a WRITE that returned OK (R187). -/
theorem writeSector_getElem? {d : Store} {sector : Word} {b : Buffer} {i : Nat}
    (hi : i < max d.length (sectorStart sector + sectorSize)) :
    (writeSector d sector b)[i]? =
      if sectorStart sector ≤ i ∧ i < sectorStart sector + sectorSize then b.1[i - sectorStart sector]?
      else if i < d.length then d[i]? else some 0 := by
  have hgap : (List.replicate (sectorStart sector - d.length) (0 : Word)).length = sectorStart sector - d.length :=
    List.length_replicate
  rw [writeSector_eq_overwriteAt, overwriteAt_getElem? _ _ (Nat.min_le_left _ _), List.length_append, hgap, b.2]
  by_cases hsector : sectorStart sector ≤ i ∧ i < sectorStart sector + sectorSize
  · rw [if_pos (by omega), if_pos hsector, List.getElem?_append_right (by omega), hgap]
    congr 1
    omega
  · rw [if_neg hsector]
    by_cases hold : i < d.length
    · rw [if_neg (by omega), if_pos hold]
    · rw [if_pos (by omega), if_neg hold, List.getElem?_append_left (by omega),
        List.getElem?_replicate_of_lt (by omega)]

/-- A failed WRITE overwrites with the drawn words, cut at the sector's end (R188). -/
theorem failedWriteStore_eq_overwriteAt (d : Store) (sector : Word) (landed : List Word) :
    failedWriteStore d sector landed = overwriteAt d (min d.length (sectorStart sector))
      (landed.take (sectorStart sector + sectorSize - min d.length (sectorStart sector))) := rfl

/-- A failed WRITE keeps the words outside its sector (R188). -/
theorem failedWriteStore_getElem? {d : Store} {sector : Word} {i : Nat} (landed : List Word) (hi : i < d.length)
    (hout : i < sectorStart sector ∨ sectorStart sector + sectorSize ≤ i) :
    (failedWriteStore d sector landed)[i]? = d[i]? := by
  rw [failedWriteStore_eq_overwriteAt, overwriteAt_getElem? _ _ (Nat.min_le_left _ _), List.length_take,
    if_neg (by omega)]

/-- A WRITE whose store is available, and which is not short, returns OK (R187). -/
theorem diskWrite_of_whole {c : DiskCall} {d : Store} (havail : c.draws.unavailable = false)
    (hwhole : c.draws.shortWrite = false) : diskWrite c d = (⟨.ok, c.bufIn⟩, writeSector d c.sector c.bufIn) := by
  rw [diskWrite, havail, hwhole]
  rfl

/-- A WRITE that returned OK wrote its sector (R187). -/
theorem diskWrite_store_of_ok {c : DiskCall} {d : Store} (h : (diskWrite c d).1.result = .ok) :
    (diskWrite c d).2 = writeSector d c.sector c.bufIn := by
  unfold diskWrite at h ⊢
  split_ifs at h ⊢
  rfl

/-- A WRITE, whatever it answers, keeps the words outside its sector (R187, R188). -/
theorem diskWrite_getElem? {c : DiskCall} {d : Store} {i : Nat} (hi : i < d.length)
    (hout : i < sectorStart c.sector ∨ sectorStart c.sector + sectorSize ≤ i) : (diskWrite c d).2[i]? = d[i]? := by
  unfold diskWrite
  split
  · exact failedWriteStore_getElem? _ hi hout
  · split
    · exact failedWriteStore_getElem? _ hi hout
    · rw [writeSector_getElem? (by omega), if_neg (by omega), if_pos hi]

/-- What a call can do to the store: nothing, or a WRITE of its sector. -/
theorem diskHandle_store_cases (c : DiskCall) (d : Store) :
    (diskHandle c d).2 = d ∨ c.cmd = 2 ∧ (diskHandle c d).2 = (diskWrite c d).2 := by
  unfold diskHandle
  split_ifs with h0 h1 h2
  · exact .inl (diskReset_store c d)
  · exact .inl (diskRead_store c d)
  · exact .inr ⟨h2, rfl⟩
  · exact .inl rfl

/-- The store holds a buffer in a sector. -/
def HoldsSector (d : Store) (sector : Word) (b : Buffer) : Prop :=
  ∀ i, i < sectorSize → d[sectorStart sector + i]? = b.1[i]?

/-- A sector that holds a buffer lies in the store. -/
theorem HoldsSector.lt_length {d : Store} {sector : Word} {b : Buffer} (h : HoldsSector d sector b) {i : Nat}
    (hi : i < sectorSize) : sectorStart sector + i < d.length := by
  refine (List.getElem?_eq_some_iff.1 ((h i hi).trans (List.getElem?_eq_getElem ?_))).1
  rw [b.2]
  exact hi

/-- A WRITE that returned OK left its buffer in its sector (R187). -/
theorem holdsSector_writeSector (d : Store) (sector : Word) (b : Buffer) :
    HoldsSector (writeSector d sector b) sector b := by
  intro i hi
  rw [writeSector_getElem? (by omega), if_pos (by omega), Nat.add_sub_cancel_left]

/-- Different sectors share no word. -/
theorem sectorStart_disjoint {s s' : Word} (h : s ≠ s') {i : Nat} (hi : i < sectorSize) :
    sectorStart s + i < sectorStart s' ∨ sectorStart s' + sectorSize ≤ sectorStart s + i := by
  have hne : s.toNat ≠ s'.toNat := fun heq => h (BitVec.eq_of_toNat_eq heq)
  simp only [sectorStart, sectorSize] at hi ⊢
  omega

/-- A call that is no WRITE of the sector keeps the buffer it holds (R186 to R188). -/
theorem HoldsSector.after_call {d : Store} {sector : Word} {b : Buffer} {c : DiskCall}
    (h : HoldsSector d sector b) (hc : ¬ (c.cmd = 2 ∧ c.sector = sector)) :
    HoldsSector (diskHandle c d).2 sector b := by
  obtain hstore | ⟨hcmd, hstore⟩ := diskHandle_store_cases c d
  · rw [hstore]
    exact h
  · intro i hi
    rw [hstore, diskWrite_getElem? (h.lt_length hi) (sectorStart_disjoint (fun heq => hc ⟨hcmd, heq.symm⟩) hi)]
    exact h i hi

/-- Calls none of which is a WRITE of the sector keep the buffer it holds. -/
theorem HoldsSector.after_calls {sector : Word} {b : Buffer} {calls : List DiskCall}
    (hcalls : ∀ c ∈ calls, ¬ (c.cmd = 2 ∧ c.sector = sector)) {d : Store} (h : HoldsSector d sector b) :
    HoldsSector (calls.foldl (fun e c => (diskHandle c e).2) d) sector b := by
  induction calls generalizing d with
  | nil => exact h
  | cons c cs ih =>
    obtain ⟨hc, hcs⟩ := List.forall_mem_cons.1 hcalls
    exact ih hcs (h.after_call hc)

/-- A READ that returned OK answers the buffer that the sector holds (R192). -/
theorem HoldsSector.bufOut_of_read_ok {d : Store} {c : DiskCall} {b : Buffer} (h : HoldsSector d c.sector b)
    (hcmd : c.cmd = 1) (hok : (diskHandle c d).1.result = .ok) : (diskHandle c d).1.bufOut = b := by
  rw [diskHandle_of_read hcmd] at hok ⊢
  have hread := readSector_of_diskRead_ok hok
  refine Subtype.ext (List.ext_getElem? fun i => ?_)
  obtain hi | hi := Nat.lt_or_ge i sectorSize
  · rw [readSector_getElem? hread hi, h i hi]
  · rw [List.getElem?_eq_none ((diskRead c d).1.bufOut.2.trans_le hi), List.getElem?_eq_none (b.2.trans_le hi)]

/-- A disk call that acquires no store, or a store that does not stall, returns (R180, R191). -/
theorem diskMove_of_returns {c : DiskCall} {s : State} (h : acquiresStore c.cmd = false ∨ c.draws.stalls = false) :
    diskMove c s = .next { s with
      disk := (diskHandle c s.disk).2
      diskOut := some (diskHandle c s.disk).1
      trace := s.trace ++ [.disk c.cmd c.sector (diskHandle c s.disk).1.result] } := by
  have hgo : (acquiresStore c.cmd && c.draws.stalls) = false := Bool.and_eq_false_iff.2 h
  rw [diskMove, hgo]
  rfl

/-- Settles O46: the sector is read exactly where it lies in the store, and its words are then the store's. -/
theorem diskReadReturnsTheSector : Obligations.DiskReadReturnsTheSector := by
  intro c d hcmd
  rw [diskHandle_of_read hcmd]
  refine ⟨diskRead_store c d, fun hdown => by rw [diskRead_of_unavailable hdown],
    fun havail hshort => by rw [diskRead_of_short havail (readSector_eq_none.2 hshort)], fun havail hfits => ?_⟩
  obtain ⟨b, hb⟩ := Option.ne_none_iff_exists'.1 fun hnone => Nat.not_lt.2 hfits (readSector_eq_none.1 hnone)
  rw [diskRead_of_readSector havail hb]
  exact ⟨rfl, fun i hi => readSector_getElem? hb hi⟩

/-- Settles O47: the store is then `writeSector`'s, of which every word is known. -/
theorem diskWriteStoresTheSector : Obligations.DiskWriteStoresTheSector := by
  intro c d hcmd havail hwhole
  rw [diskHandle_of_write hcmd, diskWrite_of_whole havail hwhole]
  exact ⟨rfl, writeSector_length d c.sector c.bufIn, fun i hi => writeSector_getElem? hi⟩

/-- Settles O50: the WRITE leaves its buffer in the sector, the calls between keep it there, and the READ finds it. -/
theorem writeThenReadReturnsTheBuffer : Obligations.WriteThenReadReturnsTheBuffer := by
  intro d w r calls hw hok hcalls hr hsector
  have hwritten : HoldsSector (diskHandle w d).2 r.sector w.bufIn := by
    rw [diskHandle_of_write hw] at hok ⊢
    rw [diskWrite_store_of_ok hok, hsector]
    exact holdsSector_writeSector d w.sector w.bufIn
  rw [← hsector] at hcalls
  exact (hwritten.after_calls hcalls).bufOut_of_read_ok hr

/-- Settles O44: command 0 is RESET. -/
theorem diskResetNeverAltersTheStore : Obligations.DiskResetNeverAltersTheStore := by
  intro c d hcmd
  rw [diskHandle_of_reset hcmd, diskReset_store]

/-- Settles O45: the codes 0, 1 and 2 acquire the store, and a call of any other code returns. -/
theorem diskCommandsAreDecodedByCode : Obligations.DiskCommandsAreDecodedByCode := by
  intro c d
  have hother (h : 3 ≤ c.cmd.toNat) : acquiresStore c.cmd = false :=
    Bool.eq_false_iff.2 fun hacq => Nat.not_le.2 h (acquiresStore_iff.1 hacq)
  refine ⟨fun h => diskHandle_of_reset (BitVec.eq_of_toNat_eq h) d,
    fun h => diskHandle_of_read (BitVec.eq_of_toNat_eq h) d,
    fun h => diskHandle_of_write (BitVec.eq_of_toNat_eq h) d,
    fun h => diskHandle_of_unsupported (hother h) d, fun h s s0 hm => ?_⟩
  refine ⟨_, (step_of_nextMove hm).trans (diskMove_of_returns (.inl (hother h))), ?_, ?_⟩
  · rw [nextMove_eq hm]
  · rw [diskHandle_of_unsupported (hother h), nextMove_eq hm]

/-- Settles O51: a call whose store does not stall returns, and the move is made with the store and the trace of `s`. -/
theorem diskCallLeavesTheEngine : Obligations.DiskCallLeavesTheEngine := by
  intro s s0 c hm hstalls
  rw [step_of_nextMove hm, moveStep, diskMove_of_returns (.inr hstalls), nextMove_eq hm]

/-- Settles O60: RESET answers by the availability draw, on which alone its two outcomes differ. -/
theorem diskResetAnswersByAvailability : Obligations.DiskResetAnswersByAvailability := by
  intro c d hcmd
  rw [diskHandle_of_reset hcmd]
  exact ⟨fun havail => by rw [diskReset, havail]; rfl, fun hdown => by rw [diskReset, if_pos hdown],
    diskReset_bufOut c d, diskReset_store c d⟩

end Sys2Proof.Machine

/-! The interrupt timer along a run of ticks, and the machine with no I/O (spec/60_exceptions.md rules R217, R230,
R232). -/

namespace Sys2Proof.Machine

/-- One advance of the tick timer counts modulo the threshold (R230, R232). -/
theorem timerTick_ticks_tick {s : State} {n : Nat} (fired : Option Bool) (ht : s.cfg.timer = .ticks n)
    (hlt : s.tick < n) : (timerTick fired s).tick = (s.tick + 1) % n := by
  obtain hbelow | hreached := Nat.lt_or_ge (s.tick + 1) n
  · rw [timerTick_ticks_below fired ht hbelow, Nat.mod_eq_of_lt hbelow]
  · obtain rfl : s.tick + 1 = n := Nat.le_antisymm hlt hreached
    rw [timerTick_ticks_reached fired ht hreached, Nat.mod_self]

/-- No number of ticks changes the configuration. -/
theorem iterate_timerTick_cfg (fired : Option Bool) (k : Nat) (s : State) :
    ((timerTick fired)^[k] s).cfg = s.cfg :=
  congrFun (Function.iterate_invariant (funext (timerTick_cfg fired)) k) s

/-- The count after `k` ticks, modulo the threshold (R232). -/
theorem iterate_timerTick_ticks_tick {s : State} {n : Nat} (fired : Option Bool) (ht : s.cfg.timer = .ticks n)
    (hlt : s.tick < n) (k : Nat) : ((timerTick fired)^[k] s).tick = (s.tick + k) % n := by
  induction k with
  | zero => exact (Nat.mod_eq_of_lt hlt).symm
  | succ k ih =>
    have hk : ((timerTick fired)^[k] s).tick < n := ih.trans_lt (Nat.mod_lt _ (Nat.zero_lt_of_lt hlt))
    have hpolicy : ((timerTick fired)^[k] s).cfg.timer = .ticks n := by rw [iterate_timerTick_cfg, ht]
    rw [Function.iterate_succ_apply', timerTick_ticks_tick fired hpolicy hk, ih, Nat.mod_add_mod, Nat.add_assoc]

/-- The tick after `k` ticks is the one that reaches the threshold exactly where its number is a multiple of it. -/
theorem le_mod_succ_iff_dvd_succ {n : Nat} (hn : 1 ≤ n) (k : Nat) : n ≤ k % n + 1 ↔ n ∣ k + 1 := by
  obtain ⟨m, rfl⟩ := Nat.exists_eq_add_of_le' hn
  have hlt := Nat.mod_lt k hn
  rw [Nat.dvd_iff_mod_eq_zero, Nat.succ_mod_succ_eq_zero_iff]
  omega

/-- Settles O28: by induction the count is the number of ticks modulo T, and the next tick fires where that count
reaches T. -/
theorem timerFiresOncePerThreshold : Obligations.TimerFiresOncePerThreshold := by
  intro s n k ht hn h0
  have hcount : ((timerTick none)^[k] s).tick = k % n := by
    rw [iterate_timerTick_ticks_tick none ht (h0 ▸ hn), h0, Nat.zero_add]
  have hpolicy : ((timerTick none)^[k] s).cfg.timer = .ticks n := by rw [iterate_timerTick_cfg, ht]
  obtain ⟨-, hfires, -⟩ := timerTick_ticks_of_not_pending none
    (s := { (timerTick none)^[k] s with pending := false }) hpolicy rfl
  rw [hfires, hcount]
  exact ⟨rfl, le_mod_succ_iff_dvd_succ hn k⟩

/-- Settles O27: the two cases of the tick timer. -/
theorem ticksTimerCountsToTheThreshold : Obligations.TicksTimerCountsToTheThreshold :=
  fun _ _ fired ht _ => ⟨timerTick_ticks_below fired ht, timerTick_ticks_reached fired ht⟩

/-- A step of a stopped machine that is no reset writes no more than memory, the disk's fields, the trace and the list
of moves: it is the host's or the disk's (R120, R129, R189). -/
theorem step_frame_of_stopped {s t : State} (hstopped : s.status ≠ .running) (hstep : step s = .next t)
    (hreset : ∀ l, (nextMove s).1 ≠ .reset l) :
    t = { s with mem := t.mem, disk := t.disk, diskOut := t.diskOut, trace := t.trace, inputs := t.inputs } := by
  rw [step_eq, nextMove_state] at hstep
  cases hm : (nextMove s).1 with
  | engine d =>
    rw [hm] at hstep
    exact absurd (iteration_cases hstep).1 hstopped
  | kbdWrite v =>
    rw [hm] at hstep
    obtain rfl := Host.Outcome.next.inj hstep
    rfl
  | disk c =>
    rw [hm] at hstep
    rw [diskMove_frame hstep]
  | reset l => exact absurd hm (hreset l)

/-- Settles O57: IO_UNAVAILABLE is a stopped status, so that no iteration runs (O24) and the frame of a stopped machine
holds. -/
theorem ioUnavailableRunsNothing : Obligations.IoUnavailableRunsNothing := by
  refine ⟨fun _ _ _ _ _ _ => rfl, fun s hs => ?_⟩
  have hstopped : s.status ≠ .running := by rw [hs]; decide
  refine ⟨fun d hm => ?iteration, fun t hstep hreset => ?otherMove⟩
  case iteration => rw [stoppedMachineRunsNoIteration s _ d (Prod.ext hm rfl) hstopped, hs]
  case otherMove =>
    rw [step_frame_of_stopped hstopped hstep hreset]
    exact ⟨hs, rfl, rfl, rfl, rfl⟩

end Sys2Proof.Machine

/-! The disk store (spec/70_reset_and_hazards.md rule R255): each agent's move but a disk call leaves it. -/

namespace Sys2Proof.Machine

/-- No meaning writes the store. -/
theorem exec_disk {i : Instr} {s t : State} (h : exec i s = .next t) : t.disk = s.disk := by
  obtain ⟨u, hu, hframe⟩ := exec_frame i s
  obtain rfl := Host.Outcome.next.inj (hu.symm.trans h)
  rw [hframe]

/-- However an iteration ends, it leaves the store. -/
theorem iteration_disk {d : EngineDraws} {s t : State} (h : iteration exec d s = .next t) : t.disk = s.disk := by
  obtain ⟨-, ⟨-, rfl⟩ | ⟨-, -, rfl⟩ | ⟨-, -, ⟨op, -, rfl⟩ | ⟨i, v, -, hv, rfl⟩⟩⟩ := iteration_cases h
  · exact halt_disk _ s
  · rw [raise_disk, serviceInterrupt_disk]
  · rw [raise_disk, atExecute_disk]
  · rw [finishIteration_disk, exec_disk hv, atExecute_disk]

/-- A reset that is not refused is launched over the store it finds (R255). -/
theorem resetMove_disk {l : Launch} {s t : State} (h : resetMove l s = .next t) : t.disk = s.disk := by
  cases hl : launchImage s.cfg l.file with
  | error r => rw [resetMove_of_error hl] at h; cases h
  | ok image =>
    obtain rfl := Host.Outcome.next.inj ((resetMove_of_ok hl).symm.trans h)
    rfl

/-- A move that is no disk call leaves the store. -/
theorem moveStep_disk {m : Move} {s t : State} (h : moveStep exec m s = .next t) (hdisk : ∀ c, m ≠ .disk c) :
    t.disk = s.disk := by
  cases m with
  | engine d => exact iteration_disk h
  | kbdWrite v =>
    obtain rfl : kbdWrites [v] s = t := Host.Outcome.next.inj h
    exact kbdWrites_disk [v] s
  | disk c => exact absurd rfl (hdisk c)
  | reset l => exact resetMove_disk h

/-- Settles O52: a step makes its move, to which `moveStep_disk` applies, and `initialStore` of an absent store is the
created one. -/
theorem resetLeavesTheStore : Obligations.ResetLeavesTheStore := by
  refine ⟨fun s t hstep hdisk => ?_, fun _ _ _ _ _ _ => rfl⟩
  rw [step_eq, nextMove_state] at hstep
  exact (moveStep_disk hstep hdisk :)

end Sys2Proof.Machine

/-! The failed WRITE (spec/44_disk_controller.md rules R184, R187, R188): which draw fails it, and exactly which stores
it can leave. -/

namespace Sys2Proof.Machine

/-- A WRITE of a store that cannot be opened is UNAVAILABLE, and the drawn words land (R184, R188). -/
theorem diskWrite_of_unavailable {c : DiskCall} (h : c.draws.unavailable = true) (d : Store) :
    diskWrite c d = (⟨.fault .unavailable, c.bufIn⟩, failedWriteStore d c.sector c.draws.landed) := by
  rw [diskWrite, if_pos h]

/-- A WRITE that finds the store available and is short is SHORT_WRITE, and the drawn words land (R184, R188). -/
theorem diskWrite_of_short {c : DiskCall} (havail : c.draws.unavailable = false)
    (hshort : c.draws.shortWrite = true) (d : Store) :
    diskWrite c d = (⟨.fault .shortWrite, c.bufIn⟩, failedWriteStore d c.sector c.draws.landed) := by
  rw [diskWrite, havail, hshort]
  rfl

/-- What a WRITE answers and leaves: one draw for each fault, and OK where neither is drawn (R184, R187). -/
theorem diskWrite_cases (c : DiskCall) (d : Store) :
    (∃ r, (c.draws.unavailable = true ∨ c.draws.shortWrite = true) ∧
      diskWrite c d = (⟨.fault r, c.bufIn⟩, failedWriteStore d c.sector c.draws.landed)) ∨
    (c.draws.unavailable = false ∧ c.draws.shortWrite = false ∧
      diskWrite c d = (⟨.ok, c.bufIn⟩, writeSector d c.sector c.bufIn)) := by
  cases havail : c.draws.unavailable with
  | true => exact .inl ⟨_, .inl rfl, diskWrite_of_unavailable havail d⟩
  | false =>
    cases hshort : c.draws.shortWrite with
    | true => exact .inl ⟨_, .inr rfl, diskWrite_of_short havail hshort d⟩
    | false => exact .inr ⟨rfl, rfl, diskWrite_of_whole havail hshort⟩

/-- Settles O48: `diskWrite_cases` says which draws fail, and the store is then `failedWriteStore`'s. -/
theorem failedWriteStaysWithinTheSector : Obligations.FailedWriteStaysWithinTheSector := by
  intro c d hcmd
  rw [diskHandle_of_write hcmd]
  refine ⟨fun hdown => by rw [diskWrite_of_unavailable hdown],
    fun havail hshort => by rw [diskWrite_of_short havail hshort], ?_⟩
  obtain ⟨r, hdraw, hwrite⟩ | ⟨havail, hwhole, hwrite⟩ := diskWrite_cases c d <;> rw [hwrite]
  · obtain ⟨hmin, hmax⟩ := failedWriteStore_length d c.sector c.draws.landed
    refine ⟨⟨nofun, fun ⟨havail, hwhole⟩ => ?_⟩, fun _ => ⟨hmin, hmax, fun i hi => ?_, fun i hi hlt => ?_, rfl⟩⟩
    · simp [havail, hwhole] at hdraw
    · obtain ⟨hlt, hbefore⟩ := Nat.lt_min.1 hi
      exact failedWriteStore_getElem? _ hlt (.inl hbefore)
    · exact failedWriteStore_getElem? _ hlt (.inr hi)
  · exact ⟨⟨fun _ => ⟨havail, hwhole⟩, fun _ => rfl⟩, fun hfail => absurd rfl hfail⟩

/-- A store within the bounds of R188 is left where its own words land, from the first position the WRITE may touch. -/
theorem failedWriteStore_reaches {d e : Store} {sector : Word} (hmin : d.length ≤ e.length)
    (hmax : e.length ≤ max d.length (sectorStart sector + sectorSize))
    (hbefore : ∀ i, i < min d.length (sectorStart sector) → e[i]? = d[i]?)
    (hbehind : ∀ i, sectorStart sector + sectorSize ≤ i → i < d.length → e[i]? = d[i]?) :
    failedWriteStore d sector (e.drop (min d.length (sectorStart sector))) = e := by
  refine List.ext_getElem? fun i => ?_
  rw [failedWriteStore_eq_overwriteAt, overwriteAt_getElem? _ _ (Nat.min_le_left _ _), List.length_take,
    List.length_drop]
  split_ifs with hlanded
  · rw [List.getElem?_take_of_lt (by omega), List.getElem?_drop, Nat.add_sub_cancel' hlanded.1]
  · obtain hi | hi | hi : i < min d.length (sectorStart sector) ∨ e.length ≤ i ∨
        sectorStart sector + sectorSize ≤ i ∧ i < d.length := by omega
    · exact (hbefore i hi).symm
    · rw [List.getElem?_eq_none hi, List.getElem?_eq_none (hmin.trans hi)]
    · exact (hbehind i hi.1 hi.2).symm

/-- The WRITE of a sector that lands the given words and fails, as unavailable or as short (R184). -/
def failingWrite (unavailable : Bool) (sector : Word) (landed : List Word) : DiskCall where
  cmd := 2
  sector := sector
  bufIn := ⟨List.replicate sectorSize 0, List.length_replicate⟩
  draws := {
    unavailable := unavailable
    shortWrite := true
    stalls := false
    garbage := ⟨List.replicate sectorSize 0, List.length_replicate⟩
    landed := landed }

/-- The failing WRITE's fault, and the store it leaves. -/
theorem diskHandle_failingWrite (unavailable : Bool) (sector : Word) (landed : List Word) (d : Store) :
    (diskHandle (failingWrite unavailable sector landed) d).1.result =
      .fault (if unavailable then .unavailable else .shortWrite) ∧
    (diskHandle (failingWrite unavailable sector landed) d).2 = failedWriteStore d sector landed := by
  rw [diskHandle_of_write rfl]
  cases unavailable with
  | true => rw [diskWrite_of_unavailable rfl]; exact ⟨rfl, rfl⟩
  | false => rw [diskWrite_of_short rfl rfl]; exact ⟨rfl, rfl⟩

/-- Settles O49: the failing WRITE of either kind that lands the store's own words. -/
theorem failedWriteReachesEveryAllowedStore : Obligations.FailedWriteReachesEveryAllowedStore := by
  intro d e sector hmin hmax hbefore hbehind r hr
  have hstore := failedWriteStore_reaches hmin hmax hbefore hbehind
  have hcall (unavailable : Bool) := diskHandle_failingWrite unavailable sector
    (e.drop (min d.length (sectorStart sector))) d
  rw [hstore] at hcall
  obtain rfl | rfl := hr
  · exact ⟨_, rfl, rfl, rfl, hcall true⟩
  · exact ⟨_, rfl, rfl, rfl, hcall false⟩

end Sys2Proof.Machine

/-! The image files (spec/44_disk_controller.md rule R194, spec/70_reset_and_hazards.md rule R252): two bytes a word, in
either byte order. -/

namespace Sys2Proof.Machine

/-- A word's two file bytes make the word again (R194). -/
theorem exists_bytesOfWord (order : ByteOrder) (w : Word) :
    ∃ b0 b1, bytesOfWord order w = [b0, b1] ∧ wordOfBytes order b0 b1 = w := by
  have hhalves : w.extractLsb' 8 8 ++ w.extractLsb' 0 8 = w :=
    (BitVec.extractLsb'_append_extractLsb'_eq_extractLsb' rfl).trans BitVec.extractLsb'_eq_self
  cases order with
  | little => exact ⟨_, _, rfl, hhalves⟩
  | big => exact ⟨_, _, rfl, hhalves⟩

theorem fileOfImage_cons (order : ByteOrder) (w : Word) (ws : List Word) :
    fileOfImage order (w :: ws) = bytesOfWord order w ++ fileOfImage order ws := rfl

/-- The words of a file are the ones it was written from. -/
theorem imageOfFile_fileOfImage (order : ByteOrder) (ws : List Word) :
    imageOfFile order (fileOfImage order ws) = some ws := by
  induction ws with
  | nil => rfl
  | cons w ws ih =>
    obtain ⟨b0, b1, hbytes, hword⟩ := exists_bytesOfWord order w
    simp [fileOfImage_cons, hbytes, imageOfFile, ih, hword]

/-- Word i of the image is the bytes 2i and 2i+1 of the file (R252). -/
theorem fileOfImage_getElem? {order : ByteOrder} {ws : List Word} {i : Nat} {w : Word} (h : ws[i]? = some w) :
    (fileOfImage order ws)[2 * i]? = (bytesOfWord order w)[0]? ∧
      (fileOfImage order ws)[2 * i + 1]? = (bytesOfWord order w)[1]? := by
  induction ws generalizing i with
  | nil => cases h
  | cons v ws ih =>
    obtain ⟨b0, b1, hbytes, -⟩ := exists_bytesOfWord order v
    rw [fileOfImage_cons, hbytes]
    cases i with
    | zero =>
      obtain rfl : v = w := Option.some.inj h
      rw [hbytes]
      exact ⟨rfl, rfl⟩
    | succ i => exact ih (i := i) h

/-- Settles O58: a file of an image has two bytes for each word, since it has that image. -/
theorem imageFilesRoundTrip : Obligations.ImageFilesRoundTrip := fun order ws =>
  have hround := imageOfFile_fileOfImage order ws
  ⟨hround, (imageOfFile_length hround).symm, fun _ _ => fileOfImage_getElem?⟩

end Sys2Proof.Machine

/-! The video cells (spec/20_memory.md rule R72): a cell's address gives back its row and its column. -/

namespace Sys2Proof.Machine

/-- A cell's offset in the region, row-major (R72). -/
theorem videoAddr_sub_videoBase (c : Config) (row col : Nat) :
    videoAddr c row col - c.videoBase = c.videoCols * row + col := by
  rw [videoAddr, Nat.add_assoc, Nat.add_sub_cancel_left, Nat.mul_comm]

/-- The row of a cell, from its address (R72). -/
theorem videoAddr_sub_div {c : Config} (row : Nat) {col : Nat} (hcol : col < c.videoCols) :
    (videoAddr c row col - c.videoBase) / c.videoCols = row := by
  rw [videoAddr_sub_videoBase, Nat.mul_add_div (Nat.zero_lt_of_lt hcol), Nat.div_eq_of_lt hcol, Nat.add_zero]

/-- The column of a cell, from its address (R72). -/
theorem videoAddr_sub_mod {c : Config} (row : Nat) {col : Nat} (hcol : col < c.videoCols) :
    (videoAddr c row col - c.videoBase) % c.videoCols = col := by
  rw [videoAddr_sub_videoBase, Nat.mul_add_mod, Nat.mod_eq_of_lt hcol]

/-- Settles O42: two cells at one address have one row and one column. -/
theorem videoCellsAreDistinct : Obligations.VideoCellsAreDistinct := by
  intro c row col row' col' hcol hcol' haddr
  have hrow := videoAddr_sub_div row hcol
  have hcolumn := videoAddr_sub_mod row hcol
  rw [haddr] at hrow hcolumn
  exact ⟨hrow.symm.trans (videoAddr_sub_div row' hcol'), hcolumn.symm.trans (videoAddr_sub_mod row' hcol')⟩

end Sys2Proof.Machine

/-! The configuration (spec/00_scope.md rule R9) along each agent's move, the values a reset leaves (spec/10_state.md
rule R47), and the codes of the status and the disk port (spec/60_exceptions.md rule R213). -/

namespace Sys2Proof.Machine

/-- No meaning changes the configuration. -/
theorem exec_cfg {i : Instr} {s t : State} (h : exec i s = .next t) : t.cfg = s.cfg := by
  obtain ⟨u, hu, hframe⟩ := exec_frame i s
  obtain rfl := Host.Outcome.next.inj (hu.symm.trans h)
  rw [hframe]

/-- However an iteration ends, it leaves the configuration. -/
theorem iteration_cfg {d : EngineDraws} {s t : State} (h : iteration exec d s = .next t) : t.cfg = s.cfg := by
  obtain ⟨-, ⟨-, rfl⟩ | ⟨-, -, rfl⟩ | ⟨-, -, ⟨op, -, rfl⟩ | ⟨i, v, -, hv, rfl⟩⟩⟩ := iteration_cases h
  · exact halt_cfg _ s
  · rw [raise_cfg, serviceInterrupt_cfg]
  · rw [raise_cfg, atExecute_cfg]
  · rw [finishIteration_cfg, exec_cfg hv, atExecute_cfg]

/-- A reset that is not refused is launched in the configuration it finds (R250). -/
theorem resetMove_cfg {l : Launch} {s t : State} (h : resetMove l s = .next t) : t.cfg = s.cfg := by
  cases hl : launchImage s.cfg l.file with
  | error r => rw [resetMove_of_error hl] at h; cases h
  | ok image =>
    obtain rfl := Host.Outcome.next.inj ((resetMove_of_ok hl).symm.trans h)
    rfl

/-- Settles O37: the next move is taken off the list, and each agent's move leaves the configuration. -/
theorem configurationIsFixed : Obligations.ConfigurationIsFixed := by
  intro s t hstep
  rw [step_eq, nextMove_state] at hstep
  cases hm : (nextMove s).1 <;> rw [hm] at hstep
  case engine d => exact (iteration_cfg hstep :)
  case kbdWrite v =>
    obtain rfl := Host.Outcome.next.inj hstep
    rfl
  case disk c => rw [diskMove_frame hstep]
  case reset l => exact (resetMove_cfg hstep :)

/-- Settles O54: the fields `resetState` writes. -/
theorem resetLeavesTheTabledValues : Obligations.ResetLeavesTheTabledValues :=
  fun _ _ _ _ _ _ _ => ⟨_, rfl, rfl, rfl, rfl, rfl, rfl, rfl, rfl⟩

/-- Settles O55: TC is legal, and the empty file loads nothing. -/
theorem resetStateIsALaunch : Obligations.ResetStateIsALaunch :=
  ⟨launchImage_eq_ok.2 ⟨by decide, rfl, Nat.zero_le _⟩, rfl⟩

/-- Settles O59: the listed statuses are all there are, and their codes are the distinct numbers 0 to 6. -/
theorem codesAreAsTabled : Obligations.CodesAreAsTabled := by
  refine ⟨rfl, rfl, fun p q hcode => ?_⟩
  have hall (st : Status) : st ∈ [Status.running, .halted, .quit, .addressingFault, .decodeFault,
      .invalidOperandFault, .ioUnavailable] := by
    cases st <;> decide
  exact List.inj_on_of_nodup_map (f := Status.code) (by decide) (hall p) (hall q) hcode

end Sys2Proof.Machine
